-- ==== Sys2Proof/Word.lean ====
section
/-! DEFINITION. The word types of the block (00_scope.md R7): the byte and the 16-bit value. -/

namespace Sys2Proof

/-- A byte (octet): 8 bits, an unsigned value 0..255 (R7). -/
abbrev Byte := BitVec 8

/-- A 16-bit value: a PEC container, a raw voltage count, a range step (R92). -/
abbrev Word16 := BitVec 16

end Sys2Proof
end

