-- ==== Sys2Proof/Config.lean ====
section
/-! DEFINITION. The parameters of the block (00_scope.md R6): what an implementation fixes, and the source's own numeric
literals, which R6 calls unaudited: "every literal from the source is a configuration field and not a constant baked
into a rule". The values this hardware takes stand in Machine/Params.lean. The spec leaves no result of an operation
undefined, so there is no free value here. -/

namespace Sys2Proof

/-- WC_TAIL_BITS (R6, R115; 92 D4): 0, the flag `wc` changes nothing; or 6, six zero bits are divided after the data
when `wc` is true. -/
inductive WcTail where
  | none
  | six
deriving DecidableEq, Repr

/-- ROUND_MODE (R6, R142; 92 D7): the tie rule of `VCONV`. Ties away from zero is the default; ties to even is the
alternative 95_test_vectors.md section 2.4 gives rows for. -/
inductive RoundMode where
  | tiesAway
  | tiesEven
deriving DecidableEq, Repr

/-- The rows of R6. Fixed for the machine (R32): no operation writes it. -/
structure Config where
  /-- FRAME_LEN, the one length every Frame has (R8, R80). -/
  frameLen : Nat
  /-- SYNC0, the byte at frame offset 0 (R144). -/
  sync0 : Byte
  /-- SYNC1, the byte at frame offset 1 (R144). -/
  sync1 : Byte
  /-- PEC15_POLY, the generator's low coefficients, the term `x^15` implicit (R11, R111). -/
  pec15Poly : BitVec 15
  /-- PEC15_SEED, the initial value of the 15-bit remainder register (R111). -/
  pec15Seed : BitVec 15
  /-- PEC10_POLY, the generator's low coefficients, the term `x^10` implicit (R11, R116). -/
  pec10Poly : BitVec 10
  /-- PEC10_SEED, the initial value of the 10-bit remainder register (R116). -/
  pec10Seed : BitVec 10
  /-- WC_TAIL_BITS (R115). -/
  wcTail : WcTail
  /-- APP_AFECNT, the app command code of `BLD_AFECNT` (R86). -/
  appAfecnt : Word16
  /-- APP_RANGE, the app command code of `BLD_RANGE` (R86). -/
  appRange : Word16
  /-- APP_SPIMODE, the app command code of `BLD_SPIMODE` (R86). -/
  appSpimode : Word16
  /-- V_OFFSET_UV, the microvolts of count 0 (R142). -/
  vOffsetUv : Int
  /-- V_LSB_UV, the microvolts of one count (R142). -/
  vLsbUv : Nat
  /-- UV_WIDTH, the width of the signed microvolt operand (R142). -/
  uvWidth : Nat
  /-- ROUND_MODE (R142). -/
  roundMode : RoundMode
  /-- IDLE_WINDOW_TICKS, the idle window an instance has where its creation names none (R23). -/
  idleWindowTicks : Nat
  /-- MAX_CHUNK: the most bytes one `RX_PUSH` may carry; none is unbounded (OPEN, 92 D19). -/
  maxChunk : Option Nat
  /-- READY_Q_DEPTH: the most frames `ready_q` may hold; none is unbounded (OPEN, 92 D14). -/
  readyQDepth : Option Nat
deriving DecidableEq, Repr

end Sys2Proof
end

