-- ==== Sys2Proof/Syntax.lean ====
section
/-! DEFINITION. The operations of the block and their operands (00_scope.md R2, 30_encoding.md R92): one constructor of
Instr per row of spec/opcode_table.json. -/

namespace Sys2Proof

/-- A Frame: the bytes at offsets 0, 1, … (R8, R55). "There is one frame length" (R80), FRAME_LEN of the configuration:
`Instr.wf` checks it of an operand, and the invariant of Safety.lean says it of every frame the block holds or hands
out. -/
structure Frame where
  bytes : List Byte
deriving DecidableEq, Repr

/-- The four bytes `cmd[0..3]` of `BLD_VOLT`, in the order they are placed at offsets 2..5 (R145; 92 D9). -/
structure CmdWord where
  c0 : Byte
  c1 : Byte
  c2 : Byte
  c3 : Byte
deriving DecidableEq, Repr

/-- A slot operand (R92): a literal 16-bit value, or a signed integer of microvolts. -/
inductive Slot where
  | lit (v : Word16)
  | volt (uv : Int)
deriving DecidableEq, Repr

/-- The four frame kinds (R81). -/
inductive FrameKind where
  | volt
  | afecnt
  | range
  | spimode
deriving DecidableEq, Repr

/-- One request the environment makes of the block (R2, R92), or one frame that arrives from the transport (R206).
The last four constructors are the frame rows of the opcode table: a frame of that kind reaching unit DEC. -/
inductive Instr where
  /-- `PEC15 data` (R110). -/
  | pec15 (data : List Byte)
  /-- `PEC10 wc, data` (R115). -/
  | pec10 (wc : Bool) (data : List Byte)
  /-- `CHKSUM8 data` (R140). -/
  | chksum8 (data : List Byte)
  /-- `CHKOK frame` (R141). -/
  | chkok (frame : Frame)
  /-- `VCONV uv` (R142). -/
  | vconv (uv : Int)
  /-- `BLD_VOLT cmd, afe_index, s1, s2, s3, pec_corrupt` (R145). -/
  | bldVolt (cmd : CmdWord) (afeIndex : Byte) (s1 s2 s3 : Slot) (pecCorrupt : Bool)
  /-- `BLD_AFECNT total_count, init_flag` (R147). -/
  | bldAfecnt (totalCount : Byte) (initFlag : Bool)
  /-- `BLD_RANGE cmd_type_code, start_index, end_index, start, step` (R148). -/
  | bldRange (cmdTypeCode startIndex endIndex : Byte) (start : Slot) (step : Word16)
  /-- `BLD_SPIMODE mode` (R149). -/
  | bldSpimode (mode : Byte)
  /-- `RX_RESET idle_window` (R171). -/
  | rxReset (idleWindow : Nat)
  /-- `RX_PUSH chunk` (R172). -/
  | rxPush (chunk : List Byte)
  /-- `RX_TIMEOUT` (R176). -/
  | rxTimeout
  /-- `TICK` (R174). -/
  | tick
  /-- `POLL_READY` (R179). -/
  | pollReady
  /-- `POLL_REM` (R177). -/
  | pollRem
  /-- A frame of kind F_VOLT arrives (R82). -/
  | fVolt (frame : Frame)
  /-- A frame of kind F_AFECNT arrives (R83). -/
  | fAfecnt (frame : Frame)
  /-- A frame of kind F_RANGE arrives (R84). -/
  | fRange (frame : Frame)
  /-- A frame of kind F_SPIMODE arrives (R85). -/
  | fSpimode (frame : Frame)
deriving DecidableEq, Repr

end Sys2Proof
end

