-- ==== Sys2Proof/Machine/Params.lean ====
section
/-! DEFINITION. The values of the parameters of 00_scope.md R6 that this hardware takes: the source's literals and the
default of every model argument. -/

namespace Sys2Proof.Machine

/-- The value column of R6. -/
def defaultConfig : Config where
  frameLen := 16
  sync0 := 0x55
  sync1 := 0xAA
  -- x^15+x^14+x^10+x^8+x^7+x^4+x^3+1
  pec15Poly := 0x4599
  pec15Seed := 0x0010
  -- x^10+x^7+x^3+x^2+x+1
  pec10Poly := 0x08F
  pec10Seed := 0x008
  wcTail := .none
  -- 0x8000 or 0x0001, 0x0010, 0x0020
  appAfecnt := 0x8001
  appRange := 0x8010
  appSpimode := 0x8020
  vOffsetUv := 1500000
  vLsbUv := 150
  uvWidth := 32
  roundMode := .tiesAway
  idleWindowTicks := 100
  maxChunk := none
  readyQDepth := none

end Sys2Proof.Machine
end

