-- ==== Sys2Proof/Machine/Wire.lean ====
section
/-! DEFINITION. Bytes, 16-bit fields and frames as they stand on the wire: splitting and joining (30_encoding.md R87),
reading a frame by offset (20_memory.md R55), and the classifier of the frame rows of the opcode table (R97, R98). -/

namespace Sys2Proof.Machine

/-- `v[15:8]` (R87). -/
def hiByte (v : Word16) : Byte := v.extractLsb' 8 8

/-- `v[7:0]` (R87). -/
def loByte (v : Word16) : Byte := v.extractLsb' 0 8

/-- `{hi, lo}` (R7): the 16-bit value of its more significant and its less significant byte. -/
def joinBytes (hi lo : Byte) : Word16 := hi ++ lo

/-- A boolean operand placed as a byte (R87): `0x01` if true, `0x00` if false. -/
def boolByte (b : Bool) : Byte := if b then 0x01 else 0x00

/-- `frame[i]`, the byte at offset `i` of the frame (R8, R55). -/
def frameByte (f : Frame) (i : Nat) : Byte := f.bytes.getD i 0

/-- The classifier of R97, which the `match` and `mask` of the frame rows express (R98). A passthrough literal equal to
an app command word is taken for the app command frame (R91, R242). -/
def kindOf (c : Config) (f : Frame) : Option FrameKind :=
  if f.bytes.take 2 = [c.sync0, c.sync1] then
    if frameByte f 2 = 0 ∧ frameByte f 3 = 0 then
      if joinBytes (frameByte f 4) (frameByte f 5) = c.appAfecnt then some .afecnt
      else if joinBytes (frameByte f 4) (frameByte f 5) = c.appRange then some .range
      else if joinBytes (frameByte f 4) (frameByte f 5) = c.appSpimode then some .spimode
      else some .volt
    else some .volt
  else none

/-- A frame of the one length there is (R8, R80). -/
def frameFits (c : Config) (f : Frame) : Bool := f.bytes.length == c.frameLen

/-- `uv` is a signed integer of UV_WIDTH bits (R92, R142). -/
def uvInRange (c : Config) (uv : Int) : Bool := decide (-(2 ^ c.uvWidth) ≤ 2 * uv) && decide (2 * uv < 2 ^ c.uvWidth)

/-- A slot operand whose microvolts fit the operand width (R92). -/
def slotInRange (c : Config) : Slot → Bool
  | .lit _ => true
  | .volt uv => uvInRange c uv

end Sys2Proof.Machine
end

