-- ==== Sys2Proof/WellFormed.lean ====
section
/-! DEFINITION. Which terms of Instr are requests the spec's interface admits (30_encoding.md R92): the operand types'
own bounds. Stated preconditions such as `total_count` in 1..30 are NOT checks (41_frame_encoder.md R151): they stand
in Safety.lean. -/

namespace Sys2Proof

open Machine

/-- A configuration the rules make sense of (log entry 22): V_LSB_UV is no zero, since `VCONV` divides by it (R142, R152
(b)); SYNC0 is none of the sixteen select codes, so that a frame word can be told from a request (R93, R98); and FRAME_LEN
has room for the sixteen offsets the frame layouts assign (R55, R82 to R85). No operation checks it. -/
def Config.wf (c : Config) : Bool :=
  decide (1 ≤ c.vLsbUv) && decide (16 ≤ c.sync0.toNat) && decide (16 ≤ c.frameLen)

/-- Every operand lies in its type (R92): microvolts within UV_WIDTH, a window of at least one tick (R171), a frame of
FRAME_LEN bytes (R8), and a frame word of the kind its constructor names (R97, R98). Every other operand value is admitted (R91). -/
def Instr.wf (c : Config) : Instr → Bool
  | .pec15 _ => true
  | .pec10 _ _ => true
  | .chksum8 _ => true
  | .chkok f => frameFits c f
  | .vconv uv => uvInRange c uv
  | .bldVolt _ _ s1 s2 s3 _ => slotInRange c s1 && slotInRange c s2 && slotInRange c s3
  | .bldAfecnt _ _ => true
  | .bldRange _ _ _ start _ => slotInRange c start
  | .bldSpimode _ => true
  | .rxReset w => decide (1 ≤ w)
  | .rxPush _ => true
  | .rxTimeout => true
  | .tick => true
  | .pollReady => true
  | .pollRem => true
  | .fVolt f => frameFits c f && kindOf c f == some .volt
  | .fAfecnt f => frameFits c f && kindOf c f == some .afecnt
  | .fRange f => frameFits c f && kindOf c f == some .range
  | .fSpimode f => frameFits c f && kindOf c f == some .spimode

end Sys2Proof
end

