-- ==== Sys2Proof/Decode.lean ====
section
/-! DEFINITION. Decoding a request's bytes and encoding a request (30_encoding.md R92, R93, R97, R98).
DESIGN CHOICE (log entry 2): R92 gives a request as one transaction that names an operation and carries its operands,
and no bits for the operands; here the first byte holds the select code in its low four bits with the high four bits
zero, and the operands follow in the order of R92. Byte sequences of any length stand last in every operation that has
one, so they are the rest of the transaction. A transaction that begins with the sync byte is a frame word (R98). -/

namespace Sys2Proof

open Machine

/-- Why bytes spell no request. Each is refused by the step under its own name (R93: "it spells no operation"; R200);
safe: the machine stops where nothing is specified. -/
inductive DecodeError where
  /-- The transaction is empty. -/
  | emptyRequest
  /-- Select code `0xF` names no operation (R93, U10). -/
  | reservedSelect
  /-- The first byte is neither a select code of four bits nor the sync byte (R93, log entry 2). -/
  | badSelectByte
  /-- The transaction ends before the operation's operands do (log entry 2). -/
  | truncated
  /-- Bytes are left over after the operation's operands (log entry 2). -/
  | trailingBytes
  /-- A boolean operand is neither `0x00` nor `0x01` (R87, log entry 2). -/
  | badBoolean
  /-- A slot operand's tag is neither `Lit` nor `Volt` (R92, log entry 2). -/
  | badSlotTag
  /-- Microvolts outside the operand width UV_WIDTH (R92, log entry 10). -/
  | uvOutOfRange
  /-- The operand of `CHKOK`, or a frame word, is not of FRAME_LEN bytes (R80, R239). -/
  | frameLength
  /-- A frame word of no kind: offsets 0-1 are not the sync bytes (R97). -/
  | unclassifiedFrame
deriving DecidableEq, Repr

/-! ### Numbers as bytes -/

/-- The `n` low bytes of `v`, the least significant first. -/
def leBytes : Nat → Nat → List Byte
  | 0, _ => []
  | n + 1, v => BitVec.ofNat 8 v :: leBytes n (v / 256)

/-- The number whose bytes are given, the least significant first. -/
def natOfLe : List Byte → Nat
  | [] => 0
  | b :: bs => b.toNat + 256 * natOfLe bs

/-- The `n` low bytes of `v`, the most significant first. -/
def beBytes (n v : Nat) : List Byte := (leBytes n v).reverse

/-- The number whose bytes are given, the most significant first. -/
def natOfBe (bs : List Byte) : Nat := natOfLe bs.reverse

/-- How many bytes carry a UV_WIDTH-bit operand. -/
def uvBytes (c : Config) : Nat := (c.uvWidth + 7) / 8

/-- The signed value of `k` bytes' unsigned value `n`, in two's complement (R7). -/
def signedOfNat (k n : Nat) : Int := if 2 * n < 256 ^ k then (n : Int) else (n : Int) - 256 ^ k

/-- The `k` bytes of `v` in two's complement, the most significant first (R7 `trunc_N`). -/
def signedBytes (k : Nat) (v : Int) : List Byte := beBytes k (v % (256 ^ k : Nat)).toNat

/-! ### Operands -/

/-- A boolean operand (R87). -/
def boolOfByte (b : Byte) : Except DecodeError Bool :=
  if b = 0x00 then .ok false else if b = 0x01 then .ok true else .error .badBoolean

/-- A microvolt operand of UV_WIDTH bits from the front of the bytes, and the rest. -/
def takeUv (c : Config) (bs : List Byte) : Except DecodeError (Int × List Byte) :=
  if bs.length < uvBytes c then .error .truncated
  else if uvInRange c (signedOfNat (uvBytes c) (natOfBe (bs.take (uvBytes c)))) then
    .ok (signedOfNat (uvBytes c) (natOfBe (bs.take (uvBytes c))), bs.drop (uvBytes c))
  else .error .uvOutOfRange

/-- A slot operand (R92) from the front of the bytes, and the rest: tag `0x00` and a 16-bit value, or tag `0x01` and
microvolts. -/
def takeSlot (c : Config) : List Byte → Except DecodeError (Slot × List Byte)
  | [] => .error .truncated
  | t :: bs =>
    if t = 0x00 then
      match bs with
      | hi :: lo :: rest => .ok (.lit (joinBytes hi lo), rest)
      | _ => .error .truncated
    else if t = 0x01 then
      match takeUv c bs with
      | .ok (uv, rest) => .ok (.volt uv, rest)
      | .error e => .error e
    else .error .badSlotTag

/-- Nothing may follow the operands of an operation that takes no byte sequence. -/
def atEnd (rest : List Byte) (i : Instr) : Except DecodeError Instr :=
  match rest with
  | [] => .ok i
  | _ => .error .trailingBytes

/-! ### Operations and frames -/

/-- The operands of `BLD_VOLT` (R92). -/
def decodeBldVolt (c : Config) (bs : List Byte) : Except DecodeError Instr :=
  match bs with
  | c0 :: c1 :: c2 :: c3 :: idx :: r0 =>
    match takeSlot c r0 with
    | .error e => .error e
    | .ok (s1, r1) =>
      match takeSlot c r1 with
      | .error e => .error e
      | .ok (s2, r2) =>
        match takeSlot c r2 with
        | .error e => .error e
        | .ok (s3, r3) =>
          match r3 with
          | [] => .error .truncated
          | b :: rest =>
            match boolOfByte b with
            | .error e => .error e
            | .ok pc => atEnd rest (.bldVolt ⟨c0, c1, c2, c3⟩ idx s1 s2 s3 pc)
  | _ => .error .truncated

/-- The operands of `BLD_RANGE` (R92). -/
def decodeBldRange (c : Config) (bs : List Byte) : Except DecodeError Instr :=
  match bs with
  | ct :: si :: ei :: r0 =>
    match takeSlot c r0 with
    | .error e => .error e
    | .ok (sv, r1) =>
      match r1 with
      | hi :: lo :: rest => atEnd rest (.bldRange ct si ei sv (joinBytes hi lo))
      | _ => .error .truncated
  | _ => .error .truncated

/-- The window of `RX_RESET` (R92), a whole number of any size; DESIGN CHOICE (log entry 3): a request that carries no
window asks for the default window IDLE_WINDOW_TICKS (R23). -/
def decodeWindow (c : Config) (bs : List Byte) : Nat :=
  match bs with
  | [] => c.idleWindowTicks
  | _ => natOfBe bs

/-- The operation of select code `op` (R93) with operands `bs`. -/
def decodeOp (c : Config) (op : Nat) (bs : List Byte) : Except DecodeError Instr :=
  match op with
  | 0x0 => .ok (.pec15 bs)
  | 0x1 =>
    match bs with
    | [] => .error .truncated
    | b :: data =>
      match boolOfByte b with
      | .error e => .error e
      | .ok wc => .ok (.pec10 wc data)
  | 0x2 => .ok (.chksum8 bs)
  | 0x3 => if frameFits c ⟨bs⟩ then .ok (.chkok ⟨bs⟩) else .error .frameLength
  | 0x4 =>
    match takeUv c bs with
    | .error e => .error e
    | .ok (uv, rest) => atEnd rest (.vconv uv)
  | 0x5 => decodeBldVolt c bs
  | 0x6 =>
    match bs with
    | n :: b :: rest =>
      match boolOfByte b with
      | .error e => .error e
      | .ok ini => atEnd rest (.bldAfecnt n ini)
    | _ => .error .truncated
  | 0x7 => decodeBldRange c bs
  | 0x8 =>
    match bs with
    | m :: rest => atEnd rest (.bldSpimode m)
    | [] => .error .truncated
  | 0x9 => .ok (.rxReset (decodeWindow c bs))
  | 0xA => .ok (.rxPush bs)
  | 0xB => atEnd bs .rxTimeout
  | 0xC => atEnd bs .tick
  | 0xD => atEnd bs .pollReady
  | 0xE => atEnd bs .pollRem
  | _ => .error .reservedSelect

/-- A frame word by its kind (R97, R98). -/
def decodeFrame (c : Config) (bs : List Byte) : Except DecodeError Instr :=
  if frameFits c ⟨bs⟩ then
    match kindOf c ⟨bs⟩ with
    | some .volt => .ok (.fVolt ⟨bs⟩)
    | some .afecnt => .ok (.fAfecnt ⟨bs⟩)
    | some .range => .ok (.fRange ⟨bs⟩)
    | some .spimode => .ok (.fSpimode ⟨bs⟩)
    | none => .error .unclassifiedFrame
  else .error .frameLength

/-- The request a transaction's bytes spell; total on any bytes. -/
def decode (c : Config) (bs : List Byte) : Except DecodeError Instr :=
  match bs with
  | [] => .error .emptyRequest
  | b :: rest =>
    if b.toNat < 16 then decodeOp c b.toNat rest
    else if b = c.sync0 then decodeFrame c bs
    else .error .badSelectByte

/-! ### The encoder -/

/-- The bytes of a slot operand. -/
def encodeSlot (c : Config) : Slot → List Byte
  | .lit v => [0x00, hiByte v, loByte v]
  | .volt uv => 0x01 :: signedBytes (uvBytes c) uv

/-- The fewest whole bytes that hold `w`, at least one, the most significant first. -/
def windowBytes (w : Nat) : List Byte := beBytes (w.log2 / 8 + 1) w

/-- The bytes of a request: its select code (R93) and its operands in the order of R92; a frame word is its own bytes. -/
def encode (c : Config) : Instr → List Byte
  | .pec15 data => 0x00 :: data
  | .pec10 wc data => 0x01 :: boolByte wc :: data
  | .chksum8 data => 0x02 :: data
  | .chkok f => 0x03 :: f.bytes
  | .vconv uv => 0x04 :: signedBytes (uvBytes c) uv
  | .bldVolt cmd idx s1 s2 s3 pc =>
    [0x05, cmd.c0, cmd.c1, cmd.c2, cmd.c3, idx]
      ++ (encodeSlot c s1 ++ (encodeSlot c s2 ++ (encodeSlot c s3 ++ [boolByte pc])))
  | .bldAfecnt n ini => [0x06, n, boolByte ini]
  | .bldRange ct si ei sv st => [0x07, ct, si, ei] ++ (encodeSlot c sv ++ [hiByte st, loByte st])
  | .bldSpimode m => [0x08, m]
  | .rxReset w => 0x09 :: windowBytes w
  | .rxPush chunk => 0x0A :: chunk
  | .rxTimeout => [0x0B]
  | .tick => [0x0C]
  | .pollReady => [0x0D]
  | .pollRem => [0x0E]
  | .fVolt f => f.bytes
  | .fAfecnt f => f.bytes
  | .fRange f => f.bytes
  | .fSpimode f => f.bytes

/-- The first byte of a request (R93): its operation's select code, or the sync byte of a frame word (R98). -/
def selectByte (c : Config) : Instr → Byte
  | .pec15 _ => 0x00
  | .pec10 _ _ => 0x01
  | .chksum8 _ => 0x02
  | .chkok _ => 0x03
  | .vconv _ => 0x04
  | .bldVolt _ _ _ _ _ _ => 0x05
  | .bldAfecnt _ _ => 0x06
  | .bldRange _ _ _ _ _ => 0x07
  | .bldSpimode _ => 0x08
  | .rxReset _ => 0x09
  | .rxPush _ => 0x0A
  | .rxTimeout => 0x0B
  | .tick => 0x0C
  | .pollReady => 0x0D
  | .pollRem => 0x0E
  | .fVolt _ => c.sync0
  | .fAfecnt _ => c.sync0
  | .fRange _ => c.sync0
  | .fSpimode _ => c.sync0

/-! ### Words as the opcode table numbers them -/

/-- How many operand bytes the shortest request of a select code has beyond its first byte. -/
def minOperandBytes (c : Config) (op : Nat) : Nat :=
  match op with
  | 0x1 => 1
  | 0x3 => c.frameLen
  | 0x4 => uvBytes c
  | 0x5 => 15
  | 0x6 => 2
  | 0x7 => 8
  | 0x8 => 1
  | _ => 0

/-- The bytes of an opcode-table word. A word of a frame's bits is a frame, whose leftmost two digits are offset 0 (R98), so
its most significant byte comes first; a shorter word is a request, its first byte the least significant, followed by
zero operand bytes up to the shortest request of its select code (log entry 15). -/
def tableBytes (c : Config) (nbits w : Nat) : List Byte :=
  if nbits = 8 * c.frameLen then beBytes c.frameLen w
  else
    let given := leBytes ((nbits + 7) / 8) w
    given ++ List.replicate (1 + minOperandBytes c (w % 256) - given.length) 0

/-- The instruction the decoder reads from an opcode-table word. -/
def decodeTableWord (nbits w : Nat) : Option Instr :=
  match decode defaultConfig (tableBytes defaultConfig nbits w) with
  | .ok i => some i
  | .error _ => none

end Sys2Proof
end

