-- ==== Sys2Proof/Machine/State.lean ====
section
/-! DEFINITION. The state of the block (10_state.md) as plain data, its outputs (30_encoding.md R92, 42_frame_decoder.md
R170), the reasons a step can stop, and the state right after reset (10_state.md R31, 70_reset_and_hazards.md R230). -/

namespace Sys2Proof.Machine

/-- `timer`, the idle flush timer (R26): stopped, or running with the ticks left until it fires. -/
inductive Timer where
  | stopped
  | running (d : Nat)
deriving DecidableEq, Repr

/-- `rx_state` (R28). Not storage: a function of `buf` (Flags.lean). -/
inductive RxState where
  | idle
  | accumulating
deriving DecidableEq, Repr

/-- One reassembler instance: the state of unit DEC for one logical connection (R33). -/
structure Reassembler where
  /-- The reassembly buffer (R25). -/
  buf : List Byte
  /-- The idle flush timer (R26). -/
  timer : Timer
  /-- The ready-frame queue, oldest first (R27). -/
  readyQ : List Frame
  /-- The idle window in ticks (R23). -/
  idleWindow : Nat
deriving DecidableEq, Repr

/-- An event a DEC operation emits (R170). -/
inductive Event where
  /-- `FrameReady(f)`: the next frame's bytes of the stream. -/
  | frameReady (f : Frame)
  /-- `Remainder(r)`: all of `buf` at an idle flush, at least one byte and fewer than a frame's (R178). -/
  | remainder (r : List Byte)
deriving DecidableEq, Repr

/-- The result of an operation (R92). -/
inductive Result where
  | none
  | word16 (v : Word16)
  | byte (v : Byte)
  | bool (v : Bool)
  | frame (f : Frame)
  | frames (fs : List Frame)
  | optBytes (r : Option (List Byte))
deriving DecidableEq, Repr

/-- A response (R92): "one response carries the result and, for DEC operations, the list of emitted events". -/
structure Response where
  result : Result
  events : List Event
deriving DecidableEq, Repr

/-- One request as the environment presents it: the connection whose instance it is for (R33), and its bytes. -/
structure Request where
  conn : Nat
  bytes : List Byte
deriving DecidableEq, Repr

/-- The machine. `insts` is the spec's state (R33); `requests` and `resp` are the block's ports (R92, R60), `sel` the
connection the operation in progress is presented to, and `cfg` the parameters of R6, written by nothing (R32). -/
structure State where
  /-- The parameters of the block (R6). -/
  cfg : Config
  /-- The reassembler instances by connection number, strictly rising (R33). -/
  insts : List (Nat × Reassembler)
  /-- The connection the operation in progress is presented to (log entry 6). -/
  sel : Nat
  /-- What the environment has presented and the block has not yet taken, oldest first (R60, log entry 1). -/
  requests : List Request
  /-- The response of the operation last run (R92, log entry 7). -/
  resp : Response
deriving DecidableEq, Repr

/-- Why the machine stops with a fault. No operation of the block faults (R200). -/
inductive Fault where
  /-- Raised by `RX_PUSH` and an arriving frame when the configuration bounds `ready_q` and the extracted frames do
  not fit: "a model with a bound must refuse or fault on overflow" (92 D14). Unreachable under the default
  configuration. Safe: the machine stops where the spec gives no effect (log entry 9). -/
  | readyQueueOverflow
deriving DecidableEq, Repr

/-- Why the machine refuses a request. -/
inductive Refusal where
  /-- Raised only by an arm of exec whose instruction has no meaning yet; no arm of this model does. Safe. -/
  | notModelled (mnemonic : String)
  /-- Raised by the step when the bytes spell no request (R93, R200, U10). Safe. -/
  | badRequest (e : DecodeError)
  /-- Raised by `RX_RESET 0`: "`idle_window = 0` is not a legal operand; a model refuses it" (R171, U9). Safe. -/
  | zeroWindow
  /-- Raised by a DEC operation on a connection whose instance was never created (R232, U11). Safe. -/
  | noInstance (conn : Nat)
  /-- Raised by `RX_PUSH` and an arriving frame when the configuration bounds a chunk and this one is longer (92 D19).
  Unreachable under the default configuration. Safe (log entry 9). -/
  | chunkOverMax
deriving DecidableEq, Repr

/-- An instance right after its creation (R31, R171). -/
def Reassembler.fresh (window : Nat) : Reassembler where
  buf := []
  timer := .stopped
  readyQ := []
  idleWindow := window

/-- The machine right after reset. "Reset of the block is the creation of a reassembler instance" (R230): the instance
of connection 0 exists with the default window (R23, R31); no other does (R232). DESIGN CHOICE: the connection's
number, and the empty ports (log entries 1, 5, 6, 7). -/
def State.reset : State where
  cfg := defaultConfig
  insts := [(0, Reassembler.fresh defaultConfig.idleWindowTicks)]
  sel := 0
  requests := []
  resp := { result := .none, events := [] }

end Sys2Proof.Machine
end

