-- ==== Sys2Proof/Machine/Flags.lean ====
section
/-! DEFINITION. The flag-like state of the block. 10_state.md R22: there are no condition codes; "the only flag-like
state is whether the idle timer is running and whether the reassembler is Idle or Accumulating". -/

namespace Sys2Proof.Machine

/-- Whether a deadline is pending (R22, R208: "Pending" is `timer = Running(d)`). -/
def Timer.isRunning : Timer → Bool
  | .stopped => false
  | .running _ => true

/-- `rx_state` (R28): `Idle` exactly when `buf` is empty. -/
def Reassembler.rxState (r : Reassembler) : RxState :=
  match r.buf with
  | [] => .idle
  | _ :: _ => .accumulating

end Sys2Proof.Machine
end

