-- ==== Sys2Proof/Machine/Ops.lean ====
section
/-! DEFINITION. The named operations over the state: the instances by connection, the ports, and the shared operations
of unit DEC (cutting frames, the idle flush). The block has no exception to take: 60_exceptions.md R200 and R209; what
happens when the idle deadline passes is exactly the flush below (R209, R176). -/

namespace Sys2Proof.Machine

/-! ### The instances -/

/-- The instance of connection `k`. -/
def lookupInst (k : Nat) : List (Nat × Reassembler) → Option Reassembler
  | [] => none
  | (j, r) :: rest => if j = k then some r else lookupInst k rest

/-- The table with `r` as the instance of connection `k`, its keys kept in rising order. -/
def putInst (k : Nat) (r : Reassembler) : List (Nat × Reassembler) → List (Nat × Reassembler)
  | [] => [(k, r)]
  | (j, q) :: rest =>
    if k < j then (k, r) :: (j, q) :: rest
    else if k = j then (k, r) :: rest
    else (j, q) :: putInst k r rest

/-- The canonical form of the table of instances: keys strictly rising. -/
abbrev InstsSorted (l : List (Nat × Reassembler)) : Prop := (l.map Prod.fst).Pairwise (· < ·)

/-- The instance of connection `k`, if it was created (R232). -/
def State.inst? (s : State) (k : Nat) : Option Reassembler := lookupInst k s.insts

/-- The instance of connection `k` becomes `r`; every other instance stays (R33). -/
def State.setInst (s : State) (k : Nat) (r : Reassembler) : State := { s with insts := putInst k r s.insts }

/-! ### The ports -/

/-- The response of the operation is `result` with `events` (R92). -/
def State.respond (s : State) (result : Result) (events : List Event) : State :=
  { s with resp := { result := result, events := events } }

/-- The oldest request not yet taken, and the state once it is taken: its connection is selected (R60). -/
def takeRequest (s : State) : Option (List Byte × State) :=
  match s.requests with
  | [] => none
  | q :: rest => some (q.bytes, { s with requests := rest, sel := q.conn })

/-- An operation of units PEC and ENC: a result, no event, no state (R10, R58). -/
def pureOp (result : Result) (s : State) : Host.Outcome State Fault Refusal := .next (s.respond result [])

/-- A DEC operation on the selected instance: it yields the instance after, a result and the events. An instance that
was never created has none (R232). -/
def onInst (op : Reassembler → Reassembler × Result × List Event) (s : State) : Host.Outcome State Fault Refusal :=
  match s.inst? s.sel with
  | none => .refused (.noInstance s.sel)
  | some r => .next ((s.setInst s.sel (op r).1).respond (op r).2.1 (op r).2.2)

/-! ### Unit DEC -/

/-- The extraction loop of `RX_PUSH` (R172): while at least `len` bytes are held, 16 under R6, the first `len` leave as a
Frame. The frames in stream order, and the bytes left. The second argument bounds the passes (R180: the loop removes
`len` bytes a pass, so as many passes as bytes are enough). A length of 0, which no configuration of log entry 22 has, cuts
nothing. -/
def cutLoop (len : Nat) : Nat → List Byte → List Frame × List Byte
  | 0, b => ([], b)
  | n + 1, b =>
    if 0 < len ∧ len ≤ b.length then
      (⟨b.take len⟩ :: (cutLoop len n (b.drop len)).1, (cutLoop len n (b.drop len)).2)
    else ([], b)

/-- The frames of length `len` cut from a buffer, and the residual bytes (R172). -/
def cutFrames (len : Nat) (b : List Byte) : List Frame × List Byte := cutLoop len b.length b

/-- The timer after a push, decided once from the final residual (R172, R173 (e)). -/
def timerFor (residual : List Byte) (window : Nat) : Timer :=
  match residual with
  | [] => .stopped
  | _ :: _ => .running window

/-- `RX_PUSH` on one instance (R172), frames being of length `len`: the instance after, and the frames extracted in stream
order. -/
def Reassembler.push (len : Nat) (r : Reassembler) (chunk : List Byte) : Reassembler × List Frame :=
  ({ buf := (cutFrames len (r.buf ++ chunk)).2
     timer := timerFor (cutFrames len (r.buf ++ chunk)).2 r.idleWindow
     readyQ := r.readyQ ++ (cutFrames len (r.buf ++ chunk)).1
     idleWindow := r.idleWindow },
   (cutFrames len (r.buf ++ chunk)).1)

/-- The idle flush on one instance (R176): the instance after, and the residual bytes if there were any. -/
def Reassembler.flush (r : Reassembler) : Reassembler × Option (List Byte) :=
  match r.buf with
  | [] => ({ r with timer := .stopped }, none)
  | b :: bs => ({ r with buf := [], timer := .stopped }, some (b :: bs))

/-- The event of a flush (R176): one `Remainder`, or none. -/
def remainderEvents : Option (List Byte) → List Event
  | none => []
  | some bs => [.remainder bs]

/-- `RX_TIMEOUT` on one instance (R176). -/
def Reassembler.timeout (r : Reassembler) : Reassembler × List Event := (r.flush.1, remainderEvents r.flush.2)

/-- `TICK` on one instance (R174): nothing while stopped; count down; the last tick performs `RX_TIMEOUT` in the same
step. `Running(0)` is no state of the block (R26) and no run reaches it; it fires (log entry 13). -/
def Reassembler.tick (r : Reassembler) : Reassembler × List Event :=
  match r.timer with
  | .stopped => (r, [])
  | .running 0 => r.timeout
  | .running 1 => r.timeout
  | .running (d + 2) => ({ r with timer := .running (d + 1) }, [])

/-- A chunk within MAX_CHUNK, where the configuration sets one (R6; 92 D19). -/
def chunkFits (c : Config) (chunk : List Byte) : Bool :=
  match c.maxChunk with
  | none => true
  | some n => decide (chunk.length ≤ n)

/-- A queue within READY_Q_DEPTH, where the configuration sets one (R6; 92 D14). -/
def queueFits (c : Config) (q : List Frame) : Bool :=
  match c.readyQDepth with
  | none => true
  | some n => decide (q.length ≤ n)

/-- Bytes arrive at the selected instance as one chunk (R172, R206 (a)): the extracted frames are emitted as
`FrameReady` events in stream order and appended to `ready_q`. -/
def pushBytes (chunk : List Byte) (s : State) : Host.Outcome State Fault Refusal :=
  match s.inst? s.sel with
  | none => .refused (.noInstance s.sel)
  | some r =>
    if chunkFits s.cfg chunk then
      if queueFits s.cfg (r.push s.cfg.frameLen chunk).1.readyQ then
        .next ((s.setInst s.sel (r.push s.cfg.frameLen chunk).1).respond .none
          ((r.push s.cfg.frameLen chunk).2.map .frameReady))
      else .fault .readyQueueOverflow
    else .refused .chunkOverMax

end Sys2Proof.Machine
end

