-- ==== Sys2Proof/Machine/Operands.lean ====
section
/-! DEFINITION. The operand forms: the voltage conversion (41_frame_encoder.md R142) and the value of a slot operand
(R143). Splitting and joining of 16-bit values and the byte of a boolean stand in Machine/Wire.lean (R87). -/

namespace Sys2Proof.Machine

/-- `a / d` for natural numbers, rounded to the nearest whole number; a tie goes up under ties away from zero, to the
even number under ties to even (R142; 92 D7). -/
def roundNat (m : RoundMode) (a d : Nat) : Nat :=
  match m with
  | .tiesAway => (2 * a + d) / (2 * d)
  | .tiesEven =>
    if 2 * (a % d) < d then a / d
    else if d < 2 * (a % d) then a / d + 1
    else if a / d % 2 = 0 then a / d
    else a / d + 1

/-- `n / d` rounded to the nearest integer, symmetric about zero (R142, R152 (b)). -/
def roundInt (m : RoundMode) (n : Int) (d : Nat) : Int :=
  if 0 ≤ n then (roundNat m n.natAbs d : Int) else -(roundNat m n.natAbs d : Int)

/-- The count of a voltage before truncation (R142): the exact difference from V_OFFSET_UV over V_LSB_UV, rounded. -/
def voltCount (c : Config) (uv : Int) : Int := roundInt c.roundMode (uv - c.vOffsetUv) c.vLsbUv

/-- `VCONV uv` (R142): the count truncated to its low 16 bits in two's complement; no saturation. -/
def vconv (c : Config) (uv : Int) : Word16 := BitVec.ofInt 16 (voltCount c uv)

/-- The raw 16-bit value of a slot operand (R143). -/
def raw16 (c : Config) : Slot → Word16
  | .lit v => v
  | .volt uv => vconv c uv

end Sys2Proof.Machine
end

