-- ==== Sys2Proof/Machine/Pec.lean ====
section
/-! DEFINITION. Unit PEC (40_pec_engine.md): the bit-serial division, which is the normative definition, the generated
tables, the table-driven forms, and the meanings of `PEC15` and `PEC10`. -/

namespace Sys2Proof.Machine

/-! ### Polynomial division -/

/-- One division step (R122): the top bit xor the data bit feeds the polynomial back into the shifted remainder. -/
def step1 {n : Nat} (poly rem : BitVec n) (d : Bool) : BitVec n :=
  if (rem.msb ^^ d) = true then (rem <<< 1) ^^^ poly else rem <<< 1

/-- The eight bits of a byte, bit 7 first (R52). -/
def bitsOf (b : Byte) : List Bool :=
  [b.getLsbD 7, b.getLsbD 6, b.getLsbD 5, b.getLsbD 4, b.getLsbD 3, b.getLsbD 2, b.getLsbD 1, b.getLsbD 0]

/-- One byte step (R122): the eight bits of a byte, bit 7 first. -/
def step8 {n : Nat} (poly rem : BitVec n) (b : Byte) : BitVec n := (bitsOf b).foldl (step1 poly) rem

/-- The remainder after a byte sequence, from a given initial remainder (R110, R115). -/
def divide {n : Nat} (poly seed : BitVec n) (data : List Byte) : BitVec n := data.foldl (step8 poly) seed

/-- `k` further zero bits (R115, the tail of WC_TAIL_BITS). -/
def zeroBits {n : Nat} (poly : BitVec n) : Nat → BitVec n → BitVec n
  | 0, rem => rem
  | k + 1, rem => zeroBits poly k (step1 poly rem false)

/-- WC_TAIL_BITS as a number (R6). -/
def wcTailBits : WcTail → Nat
  | .none => 0
  | .six => 6

/-! ### The bit-serial forms -/

/-- `PEC15 data` (R110): the remainder in bits 15..1 of the container, bit 0 zero (R53). -/
def pec15 (c : Config) (data : List Byte) : Word16 := (divide c.pec15Poly c.pec15Seed data).setWidth 16 <<< 1

/-- The 10-bit remainder of `PEC10 wc, data` (R115). -/
def pec10Rem (c : Config) (wc : Bool) (data : List Byte) : BitVec 10 :=
  if wc then zeroBits c.pec10Poly (wcTailBits c.wcTail) (divide c.pec10Poly c.pec10Seed data)
  else divide c.pec10Poly c.pec10Seed data

/-- `PEC10 wc, data` (R115): the remainder in bits 9..0 of the container, bits 15..10 zero (R53). -/
def pec10 (c : Config) (wc : Bool) (data : List Byte) : Word16 := (pec10Rem c wc data).setWidth 16

/-! ### The tables and the table-driven forms -/

/-- `T15` (R112, R24): 256 15-bit remainders in 16-bit words, bit 15 zero. A constant (R233, log entry 12), a function of
PEC15_POLY alone (R24). -/
def t15 (poly : BitVec 15) : List Word16 := (List.range 256).map fun i => (step8 poly 0 (BitVec.ofNat 8 i)).setWidth 16

/-- `T10` (R117, R24): 256 10-bit remainders. A constant (R233, log entry 12), a function of PEC10_POLY alone (R24). -/
def t10 (poly : BitVec 10) : List (BitVec 10) := (List.range 256).map fun i => step8 poly 0 (BitVec.ofNat 8 i)

/-- One byte of the table-driven `PEC15` (R113). -/
def tableStep15 (poly rem : BitVec 15) (b : Byte) : BitVec 15 :=
  (rem <<< 8) ^^^ ((t15 poly).getD (((rem >>> 7).setWidth 8) ^^^ b).toNat 0).setWidth 15

/-- The table-driven form of `PEC15` (R113). -/
def pec15Table (c : Config) (data : List Byte) : Word16 := (data.foldl (tableStep15 c.pec15Poly) c.pec15Seed).setWidth 16 <<< 1

/-- One byte of the table-driven `PEC10` (R118). -/
def tableStep10 (poly rem : BitVec 10) (b : Byte) : BitVec 10 :=
  (rem <<< 8) ^^^ (t10 poly).getD (((rem >>> 2).setWidth 8) ^^^ b).toNat 0

/-- The table-driven form of `PEC10` (R118); the tail of WC_TAIL_BITS has no table form. -/
def pec10Table (c : Config) (wc : Bool) (data : List Byte) : Word16 :=
  (if wc then zeroBits c.pec10Poly (wcTailBits c.wcTail) (data.foldl (tableStep10 c.pec10Poly) c.pec10Seed)
   else data.foldl (tableStep10 c.pec10Poly) c.pec10Seed).setWidth 16

/-! ### The meanings -/

/-- `PEC15` (R110, R120): pure. -/
def execPec15 (data : List Byte) (s : State) : Host.Outcome State Fault Refusal :=
  pureOp (.word16 (pec15 s.cfg data)) s

/-- `PEC10` (R115, R120): pure. -/
def execPec10 (wc : Bool) (data : List Byte) (s : State) : Host.Outcome State Fault Refusal :=
  pureOp (.word16 (pec10 s.cfg wc data)) s

end Sys2Proof.Machine
end

