-- ==== Sys2Proof/Machine/Enc.lean ====
section
/-! DEFINITION. Unit ENC (41_frame_encoder.md): the checksum, the shared frame constructor, the four builders and the
meanings of its operations. All are pure and total (R10, R151): no operand value faults, saturates or is clamped. -/

namespace Sys2Proof.Machine

/-! ### Checksum -/

/-- `CHKSUM8 data` (R140): the bytes added modulo 256, from 0. -/
def chksum8 (data : List Byte) : Byte := data.foldl (· + ·) 0

/-- `CHKOK frame` (R141): the sum of every offset but the last, 0..14 under R6, equals the last, offset 15. The sync header
is not looked at. -/
def chkok (c : Config) (f : Frame) : Bool :=
  chksum8 (f.bytes.take (c.frameLen - 1)) == frameByte f (c.frameLen - 1)

/-! ### The shared frame constructor -/

/-- A frame's bytes closed by their checksum, at the last offset (R89, R144). -/
def withChecksum (placed : List Byte) : Frame := ⟨placed ++ [chksum8 placed]⟩

/-- `finish(b)` (R144): the sync header, the thirteen bytes `b[2..14]`, and the checksum of all that as finally placed
(R89). A payload longer than R6's goes on with zeros (R90). -/
def finish (c : Config) (b2 b3 b4 b5 b6 b7 b8 b9 b10 b11 b12 b13 b14 : Byte) : Frame :=
  withChecksum ([c.sync0, c.sync1, b2, b3, b4, b5, b6, b7, b8, b9, b10, b11, b12, b13, b14] ++
    List.replicate (c.frameLen - 16) 0x00)

/-! ### The builders -/

/-- The six body bytes of F_VOLT (R145): the three raw values, each low byte first (R51). -/
def voltBody (r1 r2 r3 : Word16) : List Byte :=
  [loByte r1, hiByte r1, loByte r2, hiByte r2, loByte r3, hiByte r3]

/-- The low PEC byte as placed (R88, R146): inverted before placement when `pec_corrupt`. -/
def pecLow (pec : Word16) (corrupt : Bool) : Byte := if corrupt then loByte pec ^^^ 0xFF else loByte pec

/-- F_VOLT from the raw values (R82, R145). -/
def voltFrame (c : Config) (cmd : CmdWord) (afeIndex : Byte) (r1 r2 r3 : Word16) (pecCorrupt : Bool) : Frame :=
  finish c cmd.c0 cmd.c1 cmd.c2 cmd.c3 afeIndex (loByte r1) (hiByte r1) (loByte r2) (hiByte r2) (loByte r3) (hiByte r3)
    (hiByte (pec10 c true (voltBody r1 r2 r3))) (pecLow (pec10 c true (voltBody r1 r2 r3)) pecCorrupt)

/-- `BLD_VOLT` (R145, R146). -/
def bldVolt (c : Config) (cmd : CmdWord) (afeIndex : Byte) (s1 s2 s3 : Slot) (pecCorrupt : Bool) : Frame :=
  voltFrame c cmd afeIndex (raw16 c s1) (raw16 c s2) (raw16 c s3) pecCorrupt

/-- `BLD_AFECNT` (R147, R83). -/
def bldAfecnt (c : Config) (totalCount : Byte) (initFlag : Bool) : Frame :=
  finish c 0 0 (hiByte c.appAfecnt) (loByte c.appAfecnt) 0 totalCount (boolByte initFlag) 0 0 0 0 0 0

/-- `BLD_RANGE` (R148, R84): both values big-endian. -/
def bldRange (c : Config) (cmdTypeCode startIndex endIndex : Byte) (start : Slot) (step : Word16) : Frame :=
  finish c 0 0 (hiByte c.appRange) (loByte c.appRange) 0 cmdTypeCode startIndex endIndex
    (hiByte (raw16 c start)) (loByte (raw16 c start)) (hiByte step) (loByte step) 0

/-- `BLD_SPIMODE` (R149, R85). -/
def bldSpimode (c : Config) (mode : Byte) : Frame :=
  finish c 0 0 (hiByte c.appSpimode) (loByte c.appSpimode) 0 mode 0 0 0 0 0 0 0

/-! ### The meanings -/

/-- `CHKSUM8` (R140). -/
def execChksum8 (data : List Byte) (s : State) : Host.Outcome State Fault Refusal := pureOp (.byte (chksum8 data)) s

/-- `CHKOK` (R141). -/
def execChkok (f : Frame) (s : State) : Host.Outcome State Fault Refusal := pureOp (.bool (chkok s.cfg f)) s

/-- `VCONV` (R142). -/
def execVconv (uv : Int) (s : State) : Host.Outcome State Fault Refusal := pureOp (.word16 (vconv s.cfg uv)) s

/-- `BLD_VOLT` (R145). -/
def execBldVolt (cmd : CmdWord) (afeIndex : Byte) (s1 s2 s3 : Slot) (pecCorrupt : Bool) (s : State) :
    Host.Outcome State Fault Refusal :=
  pureOp (.frame (bldVolt s.cfg cmd afeIndex s1 s2 s3 pecCorrupt)) s

/-- `BLD_AFECNT` (R147). -/
def execBldAfecnt (totalCount : Byte) (initFlag : Bool) (s : State) : Host.Outcome State Fault Refusal :=
  pureOp (.frame (bldAfecnt s.cfg totalCount initFlag)) s

/-- `BLD_RANGE` (R148). -/
def execBldRange (cmdTypeCode startIndex endIndex : Byte) (start : Slot) (step : Word16) (s : State) :
    Host.Outcome State Fault Refusal :=
  pureOp (.frame (bldRange s.cfg cmdTypeCode startIndex endIndex start step)) s

/-- `BLD_SPIMODE` (R149). -/
def execBldSpimode (mode : Byte) (s : State) : Host.Outcome State Fault Refusal :=
  pureOp (.frame (bldSpimode s.cfg mode)) s

end Sys2Proof.Machine
end

