-- ==== Sys2Proof/Machine/Dec.lean ====
section
/-! DEFINITION. Unit DEC (42_frame_decoder.md): the meanings of its operations on the selected instance, and of the four
frame words of the opcode table. Each is atomic (20_memory.md R59). -/

namespace Sys2Proof.Machine

/-- `RX_RESET` (R171): creates the selected connection's instance, or creates it anew and drops what it held without an
event (R231). A window of 0 is refused (R171, U9). -/
def execRxReset (window : Nat) (s : State) : Host.Outcome State Fault Refusal :=
  if window = 0 then .refused .zeroWindow
  else .next ((s.setInst s.sel (.fresh window)).respond .none [])

/-- `RX_PUSH` (R172, R173). -/
def execRxPush (chunk : List Byte) (s : State) : Host.Outcome State Fault Refusal := pushBytes chunk s

/-- `RX_TIMEOUT` (R176): no guard on the timer (92 D23). -/
def execRxTimeout (s : State) : Host.Outcome State Fault Refusal :=
  onInst (fun r => (r.timeout.1, .none, r.timeout.2)) s

/-- `TICK` (R174). -/
def execTick (s : State) : Host.Outcome State Fault Refusal := onInst (fun r => (r.tick.1, .none, r.tick.2)) s

/-- `POLL_READY` (R179): the queue in stream order, emptied; `buf` and `timer` untouched. -/
def execPollReady (s : State) : Host.Outcome State Fault Refusal :=
  onInst (fun r => ({ r with readyQ := [] }, .frames r.readyQ, [])) s

/-- `POLL_REM` (R177): `RX_TIMEOUT` with the event delivered as the result. -/
def execPollRem (s : State) : Host.Outcome State Fault Refusal :=
  onInst (fun r => (r.flush.1, .optBytes r.flush.2, [])) s

/-! The frame rows of the opcode table. DEDUCED (log entry 4): a frame word is a frame of that kind arriving from
the transport, which is `RX_PUSH` of its bytes (R206 (a), R154); the decoder looks at none of them (R187). -/

/-- An F_VOLT frame arrives (R82). -/
def execFVolt (f : Frame) (s : State) : Host.Outcome State Fault Refusal := pushBytes f.bytes s

/-- An F_AFECNT frame arrives (R83). -/
def execFAfecnt (f : Frame) (s : State) : Host.Outcome State Fault Refusal := pushBytes f.bytes s

/-- An F_RANGE frame arrives (R84). -/
def execFRange (f : Frame) (s : State) : Host.Outcome State Fault Refusal := pushBytes f.bytes s

/-- An F_SPIMODE frame arrives (R85). -/
def execFSpimode (f : Frame) (s : State) : Host.Outcome State Fault Refusal := pushBytes f.bytes s

end Sys2Proof.Machine
end

