-- ==== Sys2Proof/Machine/Dispatch.lean ====
section
/-! DEFINITION. exec: one arm per constructor of Instr. -/

namespace Sys2Proof.Machine

def exec (i : Instr) (s : State) : Host.Outcome State Fault Refusal :=
  match i with
  -- unit PEC
  | .pec15 data => Sys2Proof.Machine.execPec15 data s
  | .pec10 wc data => Sys2Proof.Machine.execPec10 wc data s
  -- unit ENC
  | .chksum8 data => Sys2Proof.Machine.execChksum8 data s
  | .chkok frame => Sys2Proof.Machine.execChkok frame s
  | .vconv uv => Sys2Proof.Machine.execVconv uv s
  | .bldVolt cmd afeIndex s1 s2 s3 pecCorrupt => Sys2Proof.Machine.execBldVolt cmd afeIndex s1 s2 s3 pecCorrupt s
  | .bldAfecnt totalCount initFlag => Sys2Proof.Machine.execBldAfecnt totalCount initFlag s
  | .bldRange cmdTypeCode startIndex endIndex start step => Sys2Proof.Machine.execBldRange cmdTypeCode startIndex endIndex start step s
  | .bldSpimode mode => Sys2Proof.Machine.execBldSpimode mode s
  -- unit DEC
  | .rxReset idleWindow => Sys2Proof.Machine.execRxReset idleWindow s
  | .rxPush chunk => Sys2Proof.Machine.execRxPush chunk s
  | .rxTimeout => Sys2Proof.Machine.execRxTimeout s
  | .tick => Sys2Proof.Machine.execTick s
  | .pollReady => Sys2Proof.Machine.execPollReady s
  | .pollRem => Sys2Proof.Machine.execPollRem s
  -- frame words
  | .fVolt frame => Sys2Proof.Machine.execFVolt frame s
  | .fAfecnt frame => Sys2Proof.Machine.execFAfecnt frame s
  | .fRange frame => Sys2Proof.Machine.execFRange frame s
  | .fSpimode frame => Sys2Proof.Machine.execFSpimode frame s

end Sys2Proof.Machine
end

