-- ==== Sys2Proof/Machine/Step.lean ====
section
/-! DEFINITION. One step of the machine: the oldest request the environment has presented is taken, decoded and run to
completion (10_state.md R21, 20_memory.md R60). -/

namespace Sys2Proof.Machine

/-- One step. Bytes that spell no request are refused (R93, R200). DESIGN CHOICE (log entry 1): with no request
presented nothing happens, and the state stays as it is. -/
def step (s : State) : Host.Outcome State Fault Refusal :=
  match takeRequest s with
  | none => .next s
  | some (bytes, s') =>
    match decode s.cfg bytes with
    | .error e => .refused (.badRequest e)
    | .ok i => exec i s'

/-- The state with an opcode-table word presented as the very next request, to the connection selected now. A program
is the list of requests the environment presents; nothing else loads one (log entry 19). -/
def State.withFetchWord (s : State) (nbits w : Nat) : State :=
  { s with requests := { conn := s.sel, bytes := tableBytes s.cfg nbits w } :: s.requests }

end Sys2Proof.Machine
end

