-- ==== Sys2Proof/Machine/Views.lean ====
section
/-! DEFINITION. What the spec gives the host beside the operations: the field views of a frame (42_frame_decoder.md R186),
the check of a voltage frame's PEC field (30_encoding.md R96, R243), and the pseudo-operations, each with its expansion
(R96). None is an operation of the block: the decoder validates and parses nothing (R187). -/

namespace Sys2Proof.Machine

/-! ### Field views (R186) -/

/-- `frame[i..j]` (R8): the bytes of offsets `i` to `j` inclusive. -/
def frameSlice (f : Frame) (i j : Nat) : List Byte := (f.bytes.drop i).take (j + 1 - i)

/-- The fields every frame has (R55, R186): the payload from offset 7 to the last but one, 14 under R6, and the checksum at
the last, 15. -/
structure FieldView where
  sync : List Byte
  cmdword : List Byte
  appCode : Word16
  index : Byte
  payload : List Byte
  checksum : Byte
deriving DecidableEq, Repr

/-- The field views of a received frame (R186). `appCode` is meaningful when offsets 2 and 3 are zero. -/
def fieldView (c : Config) (f : Frame) : FieldView where
  sync := frameSlice f 0 1
  cmdword := frameSlice f 2 5
  appCode := joinBytes (frameByte f 4) (frameByte f 5)
  index := frameByte f 6
  payload := frameSlice f 7 (c.frameLen - 2)
  checksum := frameByte f (c.frameLen - 1)

/-- `raw_k` of a voltage frame, k = 0, 1, 2 (R186): little-endian. -/
def rawValue (f : Frame) (k : Nat) : Word16 := joinBytes (frameByte f (8 + 2 * k)) (frameByte f (7 + 2 * k))

/-- `pec_field` of a voltage frame (R186): big-endian. -/
def pecField (f : Frame) : Word16 := joinBytes (frameByte f 13) (frameByte f 14)

/-- The start value of a range frame (R84): big-endian at offsets 10 and 11. -/
def rangeStart (f : Frame) : Word16 := joinBytes (frameByte f 10) (frameByte f 11)

/-- The step value of a range frame (R84): big-endian at offsets 12 and 13. -/
def rangeStep (f : Frame) : Word16 := joinBytes (frameByte f 12) (frameByte f 13)

/-- Verifying a received F_VOLT's PEC (R96): only bits 9..0 are compared (R53, R243). -/
def pecFieldOk (c : Config) (f : Frame) : Bool :=
  (pec10 c true (frameSlice f 7 12) &&& 0x03FF) == (pecField f &&& 0x03FF)

/-! ### Pseudo-operations (R96) -/

/-- `on_bytes_received(chunk)` (R96). -/
def onBytesReceived (chunk : List Byte) : List Instr := [.rxPush chunk]

/-- `push(chunk)` (R96). -/
def push (chunk : List Byte) : List Instr := [.rxPush chunk]

/-- `poll_ready_frames()` (R96). -/
def pollReadyFrames : List Instr := [.pollReady]

/-- `on_idle_timeout()` (R96). -/
def onIdleTimeout : List Instr := [.rxTimeout]

/-- `poll_remainder_on_timeout()` (R96). -/
def pollRemainderOnTimeout : List Instr := [.pollRem]

/-- "waiting past the idle window" of a given number of ticks (R96). -/
def waitPastWindow (window : Nat) : List Instr := List.replicate window .tick

end Sys2Proof.Machine
end

