-- ==== Sys2Proof/Safety.lean ====
section
/-! DEFINITION. The terms claims use: the invariant of the block (42_frame_decoder.md section 4), what an operation leaves
alone, runs of operations with their responses, and the host's duties (70_reset_and_hazards.md R246). -/

namespace Sys2Proof

/-- The rows of R6 "fixed by source" have the values of R6. -/
abbrev Config.HasSourceLiterals (c : Config) : Prop :=
  c.frameLen = 16 ∧ c.sync0 = 0x55 ∧ c.sync1 = 0xAA ∧ c.pec15Poly = 0x4599 ∧ c.pec10Poly = 0x08F ∧ c.appAfecnt = 0x8001 ∧
  c.appRange = 0x8010 ∧ c.appSpimode = 0x8020 ∧ c.vOffsetUv = 1500000 ∧ c.vLsbUv = 150

namespace Machine

/-! ### The invariant -/

/-- Buffer and timer agree (R182, R26, R28): empty exactly when stopped; otherwise running with `1 <= d <= window`. -/
abbrev Reassembler.TimerAgrees (r : Reassembler) : Prop :=
  match r.timer with
  | .stopped => r.buf = []
  | .running d => r.buf ≠ [] ∧ 1 ≤ d ∧ d ≤ r.idleWindow

/-- Every frame has the one length there is, 16 bytes under R6 (R8, R80). -/
abbrev FramesOk (c : Config) (fs : List Frame) : Prop := ∀ f ∈ fs, f.bytes.length = c.frameLen

/-- Bytes short of a frame and not empty, 1 to 15 of them under R6 (R178). -/
abbrev ResidualOk (c : Config) (bs : List Byte) : Prop := 1 ≤ bs.length ∧ bs.length < c.frameLen

/-- The invariant of one instance: fewer bytes held than a frame has, at most 15 under R6 (R181), buffer and timer agree
(R182), a legal window (R23), a queue within the configured depth (R6), and every queued frame of FRAME_LEN bytes
(R27). -/
abbrev Reassembler.Inv (c : Config) (r : Reassembler) : Prop :=
  r.buf.length < c.frameLen ∧ r.TimerAgrees ∧ 1 ≤ r.idleWindow ∧ queueFits c r.readyQ = true ∧ FramesOk c r.readyQ

/-- A `FrameReady` carries a frame (R170), a `Remainder` a residual (R178). -/
abbrev Event.LengthOk (c : Config) (e : Event) : Prop :=
  match e with
  | .frameReady f => f.bytes.length = c.frameLen
  | .remainder bs => ResidualOk c bs

/-- Every frame a result carries has FRAME_LEN bytes (R92); what `POLL_REM` returns is absent or a residual (R177). -/
abbrev Result.LengthOk (c : Config) (x : Result) : Prop :=
  match x with
  | .frame f => f.bytes.length = c.frameLen
  | .frames fs => FramesOk c fs
  | .optBytes (some bs) => ResidualOk c bs
  | _ => True

/-- The invariant of the machine: a configuration the rules make sense of (log entry 22), the table of instances in
canonical form, every instance's invariant, and the lengths of what the response carries. -/
abbrev State.Inv (s : State) : Prop :=
  s.cfg.wf = true ∧ InstsSorted s.insts ∧ (∀ p ∈ s.insts, p.2.Inv s.cfg) ∧
  (∀ e ∈ s.resp.events, e.LengthOk s.cfg) ∧ s.resp.result.LengthOk s.cfg

/-! ### What an operation leaves alone -/

/-- Everything but the selected instance and the response is as before: the configuration, the requests still to come,
the selection and every other instance (R33). -/
def OnlySelectedChanged (s t : State) : Prop :=
  t.cfg = s.cfg ∧ t.sel = s.sel ∧ t.requests = s.requests ∧ ∀ k, k ≠ s.sel → t.inst? k = s.inst? k

end Machine

/-- The operations of units PEC and ENC (R2). -/
def Instr.isPure : Instr → Bool
  | .pec15 _ | .pec10 _ _ | .chksum8 _ | .chkok _ | .vconv _ | .bldVolt _ _ _ _ _ _ | .bldAfecnt _ _
  | .bldRange _ _ _ _ _ | .bldSpimode _ => true
  | .rxReset _ | .rxPush _ | .rxTimeout | .tick | .pollReady | .pollRem | .fVolt _ | .fAfecnt _ | .fRange _
  | .fSpimode _ => false

/-- The four builders (R2). -/
def Instr.isBuilder : Instr → Bool
  | .bldVolt _ _ _ _ _ _ | .bldAfecnt _ _ | .bldRange _ _ _ _ _ | .bldSpimode _ => true
  | .pec15 _ | .pec10 _ _ | .chksum8 _ | .chkok _ | .vconv _ | .rxReset _ | .rxPush _ | .rxTimeout | .tick
  | .pollReady | .pollRem | .fVolt _ | .fAfecnt _ | .fRange _ | .fSpimode _ => false

/-- The bytes an operation brings to the decoder (R206 (a)): a chunk, or the bytes of a frame word. -/
def Instr.arriving : Instr → Option (List Byte)
  | .rxPush chunk => some chunk
  | .fVolt f | .fAfecnt f | .fRange f | .fSpimode f => some f.bytes
  | .pec15 _ | .pec10 _ _ | .chksum8 _ | .chkok _ | .vconv _ | .bldVolt _ _ _ _ _ _ | .bldAfecnt _ _
  | .bldRange _ _ _ _ _ | .bldSpimode _ | .rxReset _ | .rxTimeout | .tick | .pollReady | .pollRem => none

/-- `RX_RESET`, which creates the instance anew (R171). -/
def Instr.isReset : Instr → Bool
  | .rxReset _ => true
  | .pec15 _ | .pec10 _ _ | .chksum8 _ | .chkok _ | .vconv _ | .bldVolt _ _ _ _ _ _ | .bldAfecnt _ _
  | .bldRange _ _ _ _ _ | .bldSpimode _ | .rxPush _ | .rxTimeout | .tick | .pollReady | .pollRem | .fVolt _
  | .fAfecnt _ | .fRange _ | .fSpimode _ => false

namespace Machine

/-- A chunk is within MAX_CHUNK, and the frames it completes fit `ready_q`, where the configuration bounds them. -/
def Room (c : Config) (r : Reassembler) (chunk : List Byte) : Prop :=
  (∀ n, c.maxChunk = some n → chunk.length ≤ n) ∧
  ∀ n, c.readyQDepth = some n → r.readyQ.length + (r.buf.length + chunk.length) / c.frameLen ≤ n

/-! ### The division over numbers -/

/-- The bits of a message, bit 7 of each byte first, the bytes in order (R52). -/
def messageBits (data : List Byte) : List Bool := data.flatMap fun b => (List.range 8).map fun k => b.getLsbD (7 - k)

/-- The division of R122 over natural numbers, one message bit at a time: a reference form that shares nothing with
`divide`. -/
def crcBits (n poly : Nat) : Nat → List Bool → Nat
  | rem, [] => rem
  | rem, d :: ds =>
    crcBits n poly (if (rem.testBit (n - 1) ^^ d) = true then (2 * rem % 2 ^ n) ^^^ poly else 2 * rem % 2 ^ n) ds

/-- A byte sequence's exact sum (R140). -/
def byteSum (data : List Byte) : Nat := (data.map BitVec.toNat).sum

/-- The end of a built frame: FRAME_LEN bytes, zeros from offset 15 on where there is more payload than R6's (R90, log entry
22), and at the last offset, 15 under R6, the sum of all bytes before it modulo 256 (R89). -/
def EndsWithChecksum (c : Config) (f : Frame) : Prop :=
  f.bytes.length = c.frameLen ∧ (∀ k, 15 ≤ k → k + 1 < c.frameLen → frameByte f k = 0x00) ∧
  (frameByte f (c.frameLen - 1)).toNat = byteSum (f.bytes.take (c.frameLen - 1)) % 256

/-! ### Runs on one instance -/

/-- The bytes an event carries (R170). -/
def Event.payload : Event → List Byte
  | .frameReady f => f.bytes
  | .remainder bs => bs

/-- The bytes of the stream a response hands out (R183): the payloads of its events, and a `POLL_REM` result. What
`POLL_READY` returns was handed out before, by the events of the push that queued it. -/
def Response.delivered (p : Response) : List Byte :=
  p.events.flatMap Event.payload ++
    match p.result with
    | .optBytes (some bs) => bs
    | _ => []

/-- Operations presented one after another to the selected instance (R60): the state after and the responses in order,
if none is refused. -/
def execAll : List Instr → State → Option (State × List Response)
  | [], s => some (s, [])
  | i :: is, s =>
    match exec i s with
    | .next t =>
      match execAll is t with
      | some (u, ps) => some (u, t.resp :: ps)
      | none => none
    | .fault _ => none
    | .refused _ => none

end Machine

/-! ### The host's duties -/

open Machine in
/-- The stated preconditions of an operation's operands (R246, R151). The block checks none of them. -/
def Instr.precondition (c : Config) : Instr → Prop
  | .vconv uv => 0 ≤ voltCount c uv ∧ voltCount c uv < 65536
  | .bldAfecnt n _ => 1 ≤ n.toNat ∧ n.toNat ≤ 30
  | .bldSpimode m => m.toNat ≤ 3
  | .bldVolt _ _ s1 s2 s3 _ => slotFits c s1 ∧ slotFits c s2 ∧ slotFits c s3
  | .bldRange _ _ _ start _ => slotFits c start
  | .rxReset w => 1 ≤ w
  | .pec15 _ | .pec10 _ _ | .chksum8 _ | .chkok _ | .rxPush _ | .rxTimeout | .tick | .pollReady | .pollRem
  | .fVolt _ | .fAfecnt _ | .fRange _ | .fSpimode _ => True
where
  /-- A voltage whose converted count fits 16 bits (R246). -/
  slotFits (c : Config) : Slot → Prop
    | .lit _ => True
    | .volt uv => 0 ≤ voltCount c uv ∧ voltCount c uv < 65536

end Sys2Proof
end

