-- ==== Sys2Proof/Certificates/Slice0/Obligations.lean ====
section
/-! DEFINITION. The statements for the provers. Each docstring names the rule of spec/ it formalises; where a clause is a
decision of the spec (92_eei_decisions.md) or of this model (a log entry), the docstring says so. -/

open Sys2Proof Sys2Proof.Machine

/-! ### Reset and the step -/

/-- R31, R230, R232, and the values of R6. The machine's choice (log entry 5): the instance that exists after reset is connection 0's. -/
def Obligations.ResetStateValues : Prop :=
  (∃ r, State.reset.inst? 0 = some r ∧ r.buf = [] ∧ r.timer = .stopped ∧ r.rxState = .idle ∧ r.readyQ = [] ∧
    r.idleWindow = 100) ∧
  (∀ k, k ≠ 0 → State.reset.inst? k = none) ∧
  State.reset.cfg.HasSourceLiterals ∧ State.reset.cfg.wf = true ∧
  State.reset.cfg.pec15Seed = 0x0010 ∧ State.reset.cfg.pec10Seed = 0x008 ∧ State.reset.cfg.wcTail = .none ∧
  State.reset.cfg.uvWidth = 32 ∧ State.reset.cfg.roundMode = .tiesAway ∧ State.reset.cfg.idleWindowTicks = 100 ∧
  State.reset.cfg.maxChunk = none ∧ State.reset.cfg.readyQDepth = none

/-- The invariant of `EveryStepKeepsTheInvariant` holds at reset. -/
def Obligations.ResetMeetsTheInvariant : Prop := State.reset.Inv

/-- R181, R182, R26, R178, R27, R170: fewer bytes held than a frame has (at most 15 under R6), buffer and timer agree, the
pending deadline lies within the window, remainders carry at least one byte and fewer than a frame has, every queued,
emitted or returned frame has FRAME_LEN bytes. The model's own clauses: a configuration the rules make sense of (log entry
22), the table of instances in canonical form (log entry 6), the configured queue depth (92 D14, log entry 9). -/
def Obligations.EveryStepKeepsTheInvariant : Prop := ∀ s t, s.Inv → step s = .next t → t.Inv

/-- R21, R60: the oldest request presented runs to completion. How requests are presented is the model's (log entries
1, 6). -/
def Obligations.StepRunsTheDecodedRequest : Prop :=
  ∀ (s : State) (q : Request) (rest : List Request) (i : Instr),
    s.requests = q :: rest → decode s.cfg q.bytes = .ok i →
      step s = exec i { s with requests := rest, sel := q.conn }

/-- R93, R200: "a request with it is refused by the model"; and the model's reading of bytes that spell no request (log
entry 2). -/
def Obligations.StepRefusesWhatSpellsNoRequest : Prop :=
  (∀ (s : State) (q : Request) (rest : List Request) (e : DecodeError),
    s.requests = q :: rest → decode s.cfg q.bytes = .error e → step s = .refused (.badRequest e)) ∧
  ∀ (c : Config) (bs : List Byte), decode c (0x0F :: bs) = .error .reservedSelect

/-- The model's choice (log entry 1): with nothing presented, nothing happens. -/
def Obligations.StepWithNothingPresented : Prop := ∀ s : State, s.requests = [] → step s = .next s

/-! ### Decoding and encoding -/

/-- R93, R97: words written out from the spec's codes. Operand bytes in the model's layout (log entries 2, 3). -/
def Obligations.SpecWordsDecode : Prop :=
  decodeTableWord 8 0b00000000 = some (.pec15 []) ∧
  decodeTableWord 8 0b00000101 =
    some (.bldVolt ⟨0, 0, 0, 0⟩ 0 (.lit 0) (.lit 0) (.lit 0) false) ∧
  decodeTableWord 8 0b00001001 = some (.rxReset 100) ∧
  decodeTableWord 8 0b00001100 = some .tick ∧
  decodeTableWord 8 0b00001111 = none ∧
  decodeTableWord 128 0x55AA0000802000020000000000000000 =
    some (.fSpimode ⟨[0x55, 0xAA, 0, 0, 0x80, 0x20, 0, 2, 0, 0, 0, 0, 0, 0, 0, 0]⟩)

/-- The encoding of every well-formed instruction, at every operand value, decodes to it (R92, R93; the layout is the
model's, log entries 2, 3; a configuration the rules make no sense of is left out, log entry 22). -/
def Obligations.DecodeOfEncodeIsTheInstruction : Prop :=
  ∀ (c : Config) (i : Instr), c.wf = true → i.wf c = true → decode c (encode c i) = .ok i

/-- What decodes begins with the select code of the operation it decodes to, or with the sync byte; no code falls through to
a neighbour. The codes are R93's (decision D1). That a request is a sequence of bytes, that the select code is its first
byte with four zero bits above it, and that a sync byte there means a frame word, is the model's choice (log entry 2,
DESIGN CHOICE), no rule of the spec. -/
def Obligations.DecodedRequestBeginsWithItsSelectCode : Prop :=
  ∀ (c : Config) (bs : List Byte) (i : Instr), decode c bs = .ok i → bs.head? = some (selectByte c i)

/-- R97 (decision D27), R98: "a frame is of the row's kind when (f and mask) = match", the numbers as the opcode table
writes them, which are those of the literals of R6, over the 16 bytes of a frame; a frame of an app command kind is not
taken for F_VOLT. -/
def Obligations.FrameRowsSelectTheKind : Prop :=
  ∀ (c : Config) (f : Frame), c.HasSourceLiterals → f.bytes.length = 16 →
    (decode c f.bytes = .ok (.fAfecnt f) ↔
      natOfBe f.bytes &&& 0xFFFFFFFFFFFF00000000000000000000 = 0x55AA0000800100000000000000000000) ∧
    (decode c f.bytes = .ok (.fRange f) ↔
      natOfBe f.bytes &&& 0xFFFFFFFFFFFF00000000000000000000 = 0x55AA0000801000000000000000000000) ∧
    (decode c f.bytes = .ok (.fSpimode f) ↔
      natOfBe f.bytes &&& 0xFFFFFFFFFFFF00000000000000000000 = 0x55AA0000802000000000000000000000) ∧
    (decode c f.bytes = .ok (.fVolt f) ↔
      natOfBe f.bytes &&& 0xFFFF0000000000000000000000000000 = 0x55AA0000000000000000000000000000 ∧
      natOfBe f.bytes &&& 0xFFFFFFFFFFFF00000000000000000000 ≠ 0x55AA0000800100000000000000000000 ∧
      natOfBe f.bytes &&& 0xFFFFFFFFFFFF00000000000000000000 ≠ 0x55AA0000801000000000000000000000 ∧
      natOfBe f.bytes &&& 0xFFFFFFFFFFFF00000000000000000000 ≠ 0x55AA0000802000000000000000000000)

/-! ### Unit PEC -/

/-- R110, R122, R52 (decisions D2, D3): `PEC15` completes with the remainder of the bit-serial division of the message
bits, shifted left once, for every generator and seed the configuration may hold; nothing else changes. -/
def Obligations.Pec15DividesTheMessageBits : Prop :=
  ∀ (data : List Byte) (s : State), ∃ v : Word16,
    exec (.pec15 data) s = .next { s with resp := { result := .word16 v, events := [] } } ∧
    v.toNat = 2 * crcBits 15 s.cfg.pec15Poly.toNat s.cfg.pec15Seed.toNat (messageBits data)

/-- R115, R122, R52 (decisions D2, D3, D4): `PEC10` completes with the remainder of the message bits, followed by six
zero bits when `wc` is true and WC_TAIL_BITS is 6; bits 15..10 are zero; nothing else changes. -/
def Obligations.Pec10DividesTheMessageBits : Prop :=
  ∀ (wc : Bool) (data : List Byte) (s : State), ∃ v : Word16,
    exec (.pec10 wc data) s = .next { s with resp := { result := .word16 v, events := [] } } ∧
    v.toNat = crcBits 10 s.cfg.pec10Poly.toNat s.cfg.pec10Seed.toNat
      (messageBits data ++ if wc = true ∧ s.cfg.wcTail = .six then List.replicate 6 false else []) ∧
    v.toNat < 0x400

/-- A remainder register as a polynomial over GF(2) (R11): bit `k` is the coefficient of `x^k`. -/
noncomputable def Sys2Proof.gf2 {n : Nat} (v : BitVec n) : Polynomial (ZMod 2) :=
  ∑ k ∈ Finset.range n, if v.getLsbD k then Polynomial.X ^ k else 0

/-- A message as a polynomial over GF(2) (R11, R52): the first byte the most significant. -/
noncomputable def Sys2Proof.gf2Message (data : List Byte) : Polynomial (ZMod 2) :=
  data.foldl (fun p b => p * Polynomial.X ^ 8 + gf2 b) 0

/-- R11: "Division is the long division of the message polynomial by the generator with all coefficient arithmetic
modulo 2". The division of unit PEC leaves exactly the remainder, for every width, generator, seed and message (the
seed stands in front of the message; the bit order is decision D2). -/
def Obligations.DivisionIsPolynomialDivision : Prop :=
  ∀ (n : Nat) (poly seed : BitVec n) (data : List Byte), ∃ q : Polynomial (ZMod 2),
    gf2 seed * Polynomial.X ^ (8 * data.length) + gf2Message data * Polynomial.X ^ n =
      q * (Polynomial.X ^ n + gf2 poly) + gf2 (divide poly seed data)

/-- R113: the table-driven form of `PEC15` returns the value of the bit-serial form for every input (the form's shape is
from general knowledge, G2; decision D5). -/
def Obligations.Pec15TableFormEqualsBitSerial : Prop :=
  ∀ (c : Config) (data : List Byte), pec15Table c data = pec15 c data

/-- R118: the same for `PEC10`, the six-bit tail included (G2; decision D5). -/
def Obligations.Pec10TableFormEqualsBitSerial : Prop :=
  ∀ (c : Config) (wc : Bool) (data : List Byte), pec10Table c wc data = pec10 c wc data

/-- R24, R112, R117 (decision D5): 256 entries each, entry `i` the remainder of the byte `i` from a zero register, upper
bits zero; and the spot checks of 40_pec_engine.md section 4, `T[1]` the generator and `T[i xor j] = T[i] xor T[j]`; for
every generator. -/
def Obligations.TablesHoldTheGeneratedRemainders : Prop :=
  ∀ (p : BitVec 15) (q : BitVec 10),
    (t15 p).length = 256 ∧ (t10 q).length = 256 ∧
    (∀ i : Byte, (t15 p)[i.toNat]? = some (BitVec.ofNat 16 (crcBits 15 p.toNat 0 (messageBits [i]))) ∧
      (t10 q)[i.toNat]? = some (BitVec.ofNat 10 (crcBits 10 q.toNat 0 (messageBits [i])))) ∧
    (∀ w ∈ t15 p, w.getLsbD 15 = false) ∧
    (t15 p).getD 1 0 = p.setWidth 16 ∧ (t10 q).getD 1 0 = q ∧
    ∀ i j : Byte, (t15 p).getD (i ^^^ j).toNat 0 = (t15 p).getD i.toNat 0 ^^^ (t15 p).getD j.toNat 0 ∧
      (t10 q).getD (i ^^^ j).toNat 0 = (t10 q).getD i.toNat 0 ^^^ (t10 q).getD j.toNat 0

/-- R114 (a) and (b), R119: a division continues over what follows, and for messages of equal length the difference of
two remainders is the zero-seeded remainder of the difference, and three results give a fourth, for `PEC10` with either
value of `wc` and of WC_TAIL_BITS. -/
def Obligations.DivisionIsIncrementalAndAffine : Prop :=
  (∀ (n : Nat) (poly seed : BitVec n) (d e : List Byte), divide poly seed (d ++ e) = divide poly (divide poly seed d) e) ∧
  (∀ (n : Nat) (poly seed : BitVec n) (d e : List Byte), d.length = e.length →
    divide poly seed d ^^^ divide poly seed e = divide poly 0 (List.zipWith (· ^^^ ·) d e)) ∧
  ∀ (c : Config) (wc : Bool) (d e z : List Byte), d.length = e.length → e.length = z.length →
    pec15 c d ^^^ pec15 c e ^^^ pec15 c z = pec15 c (List.zipWith (· ^^^ ·) (List.zipWith (· ^^^ ·) d e) z) ∧
    pec10 c wc d ^^^ pec10 c wc e ^^^ pec10 c wc z =
      pec10 c wc (List.zipWith (· ^^^ ·) (List.zipWith (· ^^^ ·) d e) z)

/-- R53: container bit `k+1` of a PEC15 holds remainder bit `k` and bit 0 is 0; container bit `k` of a PEC10 holds
remainder bit `k` and bits 15..10 are 0. -/
def Obligations.PecContainersPlaceTheRemainder : Prop :=
  ∀ (c : Config) (wc : Bool) (data : List Byte),
    (pec15 c data).getLsbD 0 = false ∧
    (∀ k, k < 15 → (pec15 c data).getLsbD (k + 1) = (divide c.pec15Poly c.pec15Seed data).getLsbD k) ∧
    (∀ k, k < 10 → (pec10 c wc data).getLsbD k = (pec10Rem c wc data).getLsbD k) ∧
    ∀ k, 10 ≤ k → (pec10 c wc data).getLsbD k = false

/-- R120: both operations of unit PEC read no state but the constant tables, write no state, emit no event, raise nothing
and are total; two calls with identical input yield identical output. (The configuration is the seed and the tail of
R111 and R115, no state.) -/
def Obligations.PecOperationsArePure : Prop :=
  ∀ (i : Instr) (data : List Byte) (wc : Bool), i = .pec15 data ∨ i = .pec10 wc data →
    ∀ s : State, ∃ v : Word16,
      exec i s = .next { s with resp := { result := .word16 v, events := [] } } ∧
      ∀ s' : State, s'.cfg = s.cfg → exec i s' = .next { s' with resp := { result := .word16 v, events := [] } }

/-! ### Unit ENC -/

/-- R140: `CHKSUM8` completes with the exact sum of the bytes reduced modulo 256; nothing else changes. -/
def Obligations.Chksum8AddsModulo256 : Prop :=
  ∀ (data : List Byte) (s : State), ∃ v : Byte,
    exec (.chksum8 data) s = .next { s with resp := { result := .byte v, events := [] } } ∧
    v.toNat = byteSum data % 256

/-- R141: `CHKOK` completes with whether the sum of offsets 0..14 equals offset 15, where FRAME_LEN is 16 as in R6; nothing
else changes. The last clause, that under any other FRAME_LEN the checksum is the last offset and covers every offset before
it, is no rule of the spec but the model's choice (log entry 22, DESIGN CHOICE). -/
def Obligations.ChkokComparesTheSum : Prop :=
  ∀ (f : Frame) (s : State), ∃ b : Bool,
    exec (.chkok f) s = .next { s with resp := { result := .bool b, events := [] } } ∧
    (s.cfg.frameLen = 16 → (b = true ↔ byteSum (f.bytes.take 15) % 256 = (frameByte f 15).toNat)) ∧
    (b = true ↔ byteSum (f.bytes.take (s.cfg.frameLen - 1)) % 256 = (frameByte f (s.cfg.frameLen - 1)).toNat)

/-- R142, R152 (b) (decisions D6, D7, D8): `VCONV` completes with the low 16 bits of the count nearest to
`(uv - V_OFFSET_UV) / V_LSB_UV`, R6's `(uv - 1500000) / 150` under its literals; a tie goes away from zero. Under the other
ROUND_MODE it goes to the even count: that clause is no rule of the spec but log entry 11, read from 95_test_vectors.md
section 2.4. Nothing else changes. A configuration with V_LSB_UV 0 completes too and has no nearest count (log entry
22). -/
def Obligations.VconvRoundsToNearest : Prop :=
  ∀ (uv : Int) (s : State), ∃ q : Int,
    exec (.vconv uv) s = .next { s with resp := { result := .word16 (BitVec.ofInt 16 q), events := [] } } ∧
    (s.cfg.wf = true →
      2 * (uv - s.cfg.vOffsetUv - s.cfg.vLsbUv * q).natAbs ≤ s.cfg.vLsbUv ∧
      (2 * (uv - s.cfg.vOffsetUv - s.cfg.vLsbUv * q).natAbs = s.cfg.vLsbUv → s.cfg.roundMode = .tiesAway →
        (uv - s.cfg.vOffsetUv).natAbs < (s.cfg.vLsbUv * q).natAbs) ∧
      (2 * (uv - s.cfg.vOffsetUv - s.cfg.vLsbUv * q).natAbs = s.cfg.vLsbUv → s.cfg.roundMode = .tiesEven → q % 2 = 0)) ∧
    (s.cfg.HasSourceLiterals → 2 * (uv - 1500000 - 150 * q).natAbs ≤ 150)

/-- R142: under the default tie rule and the literals of R6 a result is in range as a signed 16-bit count exactly when
`-3415274 <= uv <= 6415124` (decisions D7, D8). -/
def Obligations.VconvExactRange : Prop :=
  ∀ (c : Config) (uv : Int), c.HasSourceLiterals → c.roundMode = .tiesAway →
    ((vconv c uv).toInt = voltCount c uv ↔ -3415274 ≤ uv ∧ uv ≤ 6415124)

/-- R143: a literal slot's raw value is the literal; a voltage slot's is what `VCONV` returns; and each of the three slots
of `BLD_VOLT` counts for its own raw value, whatever form the other two have. -/
def Obligations.SlotValueIsLiteralOrConverted : Prop :=
  (∀ (s : State) (v : Word16) (uv : Int), raw16 s.cfg (.lit v) = v ∧
    exec (.vconv uv) s = .next { s with resp := { result := .word16 (raw16 s.cfg (.volt uv)), events := [] } }) ∧
  ∀ (cmd : CmdWord) (idx : Byte) (s1 s2 s3 : Slot) (corrupt : Bool) (s : State),
    exec (.bldVolt cmd idx s1 s2 s3 corrupt) s =
      exec (.bldVolt cmd idx (.lit (raw16 s.cfg s1)) (.lit (raw16 s.cfg s2)) (.lit (raw16 s.cfg s3)) corrupt) s

/-- R82, R145, R88, R89 (decisions D9, D13): `BLD_VOLT` completes for every operand value with the frame of R82, its sync
bytes `55 AA` under the literals of R6; nothing else changes. How a frame longer than R6's ends is `EndsWithChecksum`
(R90, log entry 22). -/
def Obligations.BldVoltLaysOutTheFrame : Prop :=
  ∀ (cmd : CmdWord) (idx : Byte) (s1 s2 s3 : Slot) (corrupt : Bool) (s : State), ∃ (f : Frame) (pec : Word16),
    exec (.bldVolt cmd idx s1 s2 s3 corrupt) s = .next { s with resp := { result := .frame f, events := [] } } ∧
    f.bytes.take 7 = [s.cfg.sync0, s.cfg.sync1, cmd.c0, cmd.c1, cmd.c2, cmd.c3, idx] ∧
    (s.cfg.HasSourceLiterals → f.bytes.take 2 = [0x55, 0xAA]) ∧
    frameByte f 7 = (raw16 s.cfg s1).setWidth 8 ∧ frameByte f 8 = (raw16 s.cfg s1 >>> 8).setWidth 8 ∧
    frameByte f 9 = (raw16 s.cfg s2).setWidth 8 ∧ frameByte f 10 = (raw16 s.cfg s2 >>> 8).setWidth 8 ∧
    frameByte f 11 = (raw16 s.cfg s3).setWidth 8 ∧ frameByte f 12 = (raw16 s.cfg s3 >>> 8).setWidth 8 ∧
    (∃ t, exec (.pec10 true ((f.bytes.drop 7).take 6)) s = .next t ∧ t.resp.result = .word16 pec) ∧
    frameByte f 13 = (pec >>> 8).setWidth 8 ∧ (frameByte f 13).toNat ≤ 3 ∧
    frameByte f 14 = (if corrupt then pec.setWidth 8 ^^^ 0xFF else pec.setWidth 8) ∧
    (s.cfg.frameLen = 16 → f.bytes.length = 16 ∧ (frameByte f 15).toNat = byteSum (f.bytes.take 15) % 256) ∧
    (16 ≤ s.cfg.frameLen → EndsWithChecksum s.cfg f)

/-- R147, R83: `BLD_AFECNT` completes for every operand value with the frame of R83; under the literals of R6 it is
`55 AA 00 00 80 01 …` with checksum `(0x80 + total_count + init) mod 256`; nothing else changes. -/
def Obligations.BldAfecntLaysOutTheFrame : Prop :=
  ∀ (n : Byte) (ini : Bool) (s : State), ∃ (f : Frame) (flag : Byte),
    exec (.bldAfecnt n ini) s = .next { s with resp := { result := .frame f, events := [] } } ∧
    flag = (if ini then 0x01 else 0x00) ∧
    f.bytes.take 15 = [s.cfg.sync0, s.cfg.sync1, 0x00, 0x00, (s.cfg.appAfecnt >>> 8).setWidth 8,
      s.cfg.appAfecnt.setWidth 8, 0x00, n, flag, 0x00, 0x00, 0x00, 0x00, 0x00, 0x00] ∧
    (s.cfg.frameLen = 16 → f.bytes.length = 16 ∧ (frameByte f 15).toNat = byteSum (f.bytes.take 15) % 256) ∧
    (16 ≤ s.cfg.frameLen → EndsWithChecksum s.cfg f) ∧
    (s.cfg.HasSourceLiterals → f.bytes = [0x55, 0xAA, 0x00, 0x00, 0x80, 0x01, 0x00, n, flag, 0x00, 0x00, 0x00, 0x00, 0x00, 0x00,
      BitVec.ofNat 8 (0x80 + n.toNat + flag.toNat)])

/-- R148, R84 (decisions D11, D25): `BLD_RANGE` completes for every operand value with the frame of R84, which begins
`55 AA 00 00 80 10` under the literals of R6; nothing else changes. -/
def Obligations.BldRangeLaysOutTheFrame : Prop :=
  ∀ (ct si ei : Byte) (start : Slot) (step : Word16) (s : State), ∃ f : Frame,
    exec (.bldRange ct si ei start step) s = .next { s with resp := { result := .frame f, events := [] } } ∧
    f.bytes.take 10 = [s.cfg.sync0, s.cfg.sync1, 0x00, 0x00, (s.cfg.appRange >>> 8).setWidth 8,
      s.cfg.appRange.setWidth 8, 0x00, ct, si, ei] ∧
    (s.cfg.HasSourceLiterals → f.bytes.take 6 = [0x55, 0xAA, 0x00, 0x00, 0x80, 0x10]) ∧
    frameByte f 10 = (raw16 s.cfg start >>> 8).setWidth 8 ∧ frameByte f 11 = (raw16 s.cfg start).setWidth 8 ∧
    frameByte f 12 = (step >>> 8).setWidth 8 ∧ frameByte f 13 = step.setWidth 8 ∧
    frameByte f 14 = 0x00 ∧
    (s.cfg.frameLen = 16 → f.bytes.length = 16 ∧ (frameByte f 15).toNat = byteSum (f.bytes.take 15) % 256) ∧
    (16 ≤ s.cfg.frameLen → EndsWithChecksum s.cfg f)

/-- R149, R85: `BLD_SPIMODE` completes for every operand value with the frame of R85; under the literals of R6 it is
`55 AA 00 00 80 20 …` with checksum `(0x9F + mode) mod 256`; nothing else changes. -/
def Obligations.BldSpimodeLaysOutTheFrame : Prop :=
  ∀ (m : Byte) (s : State), ∃ f : Frame,
    exec (.bldSpimode m) s = .next { s with resp := { result := .frame f, events := [] } } ∧
    f.bytes.take 15 = [s.cfg.sync0, s.cfg.sync1, 0x00, 0x00, (s.cfg.appSpimode >>> 8).setWidth 8,
      s.cfg.appSpimode.setWidth 8, 0x00, m, 0x00, 0x00, 0x00, 0x00, 0x00, 0x00, 0x00] ∧
    (s.cfg.frameLen = 16 → f.bytes.length = 16 ∧ (frameByte f 15).toNat = byteSum (f.bytes.take 15) % 256) ∧
    (16 ≤ s.cfg.frameLen → EndsWithChecksum s.cfg f) ∧
    (s.cfg.HasSourceLiterals → f.bytes = [0x55, 0xAA, 0x00, 0x00, 0x80, 0x20, 0x00, m, 0x00, 0x00, 0x00, 0x00, 0x00, 0x00, 0x00,
      BitVec.ofNat 8 (0x9F + m.toNat)])

/-- R150: every builder, at every operand value, completes with a frame that begins with the sync bytes (`55 AA`
under the literals of R6), has FRAME_LEN bytes (16 under R6), and passes `CHKOK`; a FRAME_LEN without room for the layout
is left out of the last two (log entry 22). -/
def Obligations.BuildersKeepTheChecksumInvariant : Prop :=
  ∀ (i : Instr) (s : State), i.isBuilder = true → ∃ f : Frame,
    exec i s = .next { s with resp := { result := .frame f, events := [] } } ∧
    frameByte f 0 = s.cfg.sync0 ∧ frameByte f 1 = s.cfg.sync1 ∧
    (s.cfg.HasSourceLiterals → frameByte f 0 = 0x55 ∧ frameByte f 1 = 0xAA ∧ f.bytes.length = 16) ∧
    (16 ≤ s.cfg.frameLen → f.bytes.length = s.cfg.frameLen ∧
      ∀ t : State, t.cfg.frameLen = s.cfg.frameLen →
        exec (.chkok f) t = .next { t with resp := { result := .bool true, events := [] } })

/-- R146, conflict C2 (decision D13): two calls of `BLD_VOLT` that differ only in `pec_corrupt` return frames that agree
at offsets 0..13, differ at offset 14 by `xor 0xFF`, and at the last offset, 15 under R6, by `(255 - 2*p) mod 256`, never
0; where FRAME_LEN has more (log entry 22) they agree at every other offset too. -/
def Obligations.PecCorruptChangesTwoBytes : Prop :=
  ∀ (cmd : CmdWord) (idx : Byte) (s1 s2 s3 : Slot) (s : State), ∃ f g : Frame,
    exec (.bldVolt cmd idx s1 s2 s3 false) s = .next { s with resp := { result := .frame f, events := [] } } ∧
    exec (.bldVolt cmd idx s1 s2 s3 true) s = .next { s with resp := { result := .frame g, events := [] } } ∧
    g.bytes.take 14 = f.bytes.take 14 ∧
    frameByte g 14 = frameByte f 14 ^^^ 0xFF ∧
    (16 ≤ s.cfg.frameLen →
      (∀ k, k ≠ 14 → k + 1 ≠ s.cfg.frameLen → frameByte g k = frameByte f k) ∧
      frameByte g (s.cfg.frameLen - 1) =
        frameByte f (s.cfg.frameLen - 1) + BitVec.ofInt 8 (255 - 2 * ((frameByte f 14).toNat : Int)) ∧
      frameByte g (s.cfg.frameLen - 1) ≠ frameByte f (s.cfg.frameLen - 1))

/-- R96, R146, R241, R243: the masked comparison of the PEC field passes on what `BLD_VOLT` builds and fails exactly when
`pec_corrupt` was set, while `CHKOK` passes on both (a FRAME_LEN without room for the layout left out, log entry 22). -/
def Obligations.PecFieldCheckFindsTheInjectedFault : Prop :=
  ∀ (cmd : CmdWord) (idx : Byte) (s1 s2 s3 : Slot) (corrupt : Bool) (s t : State) (f : Frame),
    exec (.bldVolt cmd idx s1 s2 s3 corrupt) s = .next t → t.resp.result = .frame f →
      pecFieldOk s.cfg f = !corrupt ∧ (16 ≤ s.cfg.frameLen → chkok s.cfg f = true)

/-- R186, R55: the field views of a built frame give the operands back (offsets of the range values: decision D11). The
payload is offsets 7 to the last but one, 7..14 under R6, zeros at the end of a longer one (log entry 22); a FRAME_LEN
without room for the layout is left out of the payload clauses. -/
def Obligations.FieldViewsReturnTheOperands : Prop :=
  ∀ (s t : State) (f : Frame), t.resp.result = .frame f →
    (∀ cmd idx s1 s2 s3 corrupt, exec (.bldVolt cmd idx s1 s2 s3 corrupt) s = .next t →
      (fieldView s.cfg f).sync = [s.cfg.sync0, s.cfg.sync1] ∧
      (fieldView s.cfg f).cmdword = [cmd.c0, cmd.c1, cmd.c2, cmd.c3] ∧
      (fieldView s.cfg f).index = idx ∧ rawValue f 0 = raw16 s.cfg s1 ∧ rawValue f 1 = raw16 s.cfg s2 ∧
      rawValue f 2 = raw16 s.cfg s3) ∧
    (∀ n ini, exec (.bldAfecnt n ini) s = .next t →
      (fieldView s.cfg f).appCode = s.cfg.appAfecnt ∧ (fieldView s.cfg f).index = 0 ∧
      (16 ≤ s.cfg.frameLen → (fieldView s.cfg f).payload =
        [n, if ini then 1 else 0, 0, 0, 0, 0, 0, 0] ++ List.replicate (s.cfg.frameLen - 16) 0)) ∧
    (∀ ct si ei start step, exec (.bldRange ct si ei start step) s = .next t →
      (fieldView s.cfg f).appCode = s.cfg.appRange ∧ (fieldView s.cfg f).index = 0 ∧
      (16 ≤ s.cfg.frameLen → (fieldView s.cfg f).payload.take 3 = [ct, si, ei]) ∧
      rangeStart f = raw16 s.cfg start ∧ rangeStep f = step) ∧
    (∀ m, exec (.bldSpimode m) s = .next t →
      (fieldView s.cfg f).appCode = s.cfg.appSpimode ∧ (fieldView s.cfg f).index = 0 ∧
      (16 ≤ s.cfg.frameLen → (fieldView s.cfg f).payload =
        [m, 0, 0, 0, 0, 0, 0, 0] ++ List.replicate (s.cfg.frameLen - 16) 0))

/-- R10, R58, R151: every operation of units PEC and ENC completes at every operand value, emits no event, and changes
nothing but the response; the result does not depend on the instances. -/
def Obligations.PecAndEncOperationsCompleteAndWriteNothing : Prop :=
  ∀ (i : Instr) (s s' : State), i.isPure = true → s'.cfg = s.cfg → ∃ x : Result,
    exec i s = .next { s with resp := { result := x, events := [] } } ∧
    exec i s' = .next { s' with resp := { result := x, events := [] } }

/-! ### Unit DEC -/

/-- R171, R231 (decision D20): `RX_RESET` with a window of at least 1 completes: the instance is fresh, what it held is
dropped without an event, nothing else changes; a window of 0 is refused. -/
def Obligations.RxResetCreatesTheInstance : Prop :=
  (∀ (s : State) (w : Nat), 1 ≤ w → ∃ t, exec (.rxReset w) s = .next t ∧
    t.inst? s.sel = some { buf := [], timer := .stopped, readyQ := [], idleWindow := w } ∧
    t.resp = { result := .none, events := [] } ∧ OnlySelectedChanged s t) ∧
  ∀ s : State, exec (.rxReset 0) s = .refused .zeroWindow

/-- R172, R173, R180, R56: `RX_PUSH` completes for every chunk the configured bounds admit (every chunk, under the
default configuration): the frames emitted and queued and the bytes left are the stream in order, FRAME_LEN bytes a
frame; `(m + n) div 16` frames, `(m + n) mod 16` bytes left where FRAME_LEN is 16 as in R6; the timer restarts if bytes are
left and stops if not. The bounds are the spec's OPEN parameters (decisions D14, D19). That a FRAME_LEN of 0 cuts nothing is the model's choice (log
entry 22). -/
def Obligations.RxPushCutsTheStream : Prop :=
  ∀ (chunk : List Byte) (s : State) (r : Reassembler), s.inst? s.sel = some r → Room s.cfg r chunk →
    ∃ (t : State) (fs : List Frame) (residual : List Byte),
      exec (.rxPush chunk) s = .next t ∧
      fs.flatMap Frame.bytes ++ residual = r.buf ++ chunk ∧
      (∀ f ∈ fs, f.bytes.length = s.cfg.frameLen) ∧
      fs.length = (r.buf.length + chunk.length) / s.cfg.frameLen ∧
      residual.length = (r.buf.length + chunk.length) % s.cfg.frameLen ∧
      t.resp = { result := .none, events := fs.map .frameReady } ∧
      t.inst? s.sel = some { buf := residual, timer := if residual = [] then .stopped else .running r.idleWindow,
                             readyQ := r.readyQ ++ fs, idleWindow := r.idleWindow } ∧
      OnlySelectedChanged s t

/-- Decisions D14, D19 ("a model with a bound must refuse or fault on overflow"), log entry 9: on an instance that
exists, `RX_PUSH` and an arriving frame complete exactly where the chunk and the frames it completes are within the
configured bounds, and stop, each bound under its own name, exactly where the configuration sets one and the chunk or the
queue passes it. That a FRAME_LEN of 0 completes no frame is the model's choice (log entry 22). -/
def Obligations.ArrivalsStopOnlyAtConfiguredBounds : Prop :=
  ∀ (i : Instr) (chunk : List Byte) (s : State) (r : Reassembler), i.arriving = some chunk → s.inst? s.sel = some r →
    (exec i s = .refused .chunkOverMax ↔ ∃ n, s.cfg.maxChunk = some n ∧ n < chunk.length) ∧
    (exec i s = .fault .readyQueueOverflow ↔
      (∀ n, s.cfg.maxChunk = some n → chunk.length ≤ n) ∧
      ∃ n, s.cfg.readyQDepth = some n ∧ n < r.readyQ.length + (r.buf.length + chunk.length) / s.cfg.frameLen) ∧
    ((∃ t, exec i s = .next t) ↔ Room s.cfg r chunk)

/-- R176: `RX_TIMEOUT` completes: one `Remainder` with all residual bytes if there are any, `buf` cleared, the timer
stopped, whatever it was; `ready_q`, the window and everything else unchanged. -/
def Obligations.RxTimeoutFlushes : Prop :=
  ∀ (s : State) (r : Reassembler), s.inst? s.sel = some r → ∃ t, exec .rxTimeout s = .next t ∧
    t.resp = { result := .none, events := if r.buf = [] then [] else [.remainder r.buf] } ∧
    t.inst? s.sel = some { r with buf := [], timer := .stopped } ∧ OnlySelectedChanged s t

/-- R174 (decision D15): `TICK` completes: nothing while stopped, a count down while more than one tick is left, and on
the last tick the flush of `RX_TIMEOUT` in the same step; everything else unchanged. -/
def Obligations.TickCountsDownAndFires : Prop :=
  ∀ (s : State) (r : Reassembler), s.inst? s.sel = some r → ∃ t, exec .tick s = .next t ∧ t.resp.result = .none ∧
    (r.timer = .stopped → t.inst? s.sel = some r ∧ t.resp.events = []) ∧
    (∀ d, 1 < d → r.timer = .running d →
      t.inst? s.sel = some { r with timer := .running (d - 1) } ∧ t.resp.events = []) ∧
    (r.timer = .running 1 → t.inst? s.sel = some { r with buf := [], timer := .stopped } ∧
      t.resp.events = if r.buf = [] then [] else [.remainder r.buf]) ∧
    OnlySelectedChanged s t

/-- R177 (decision D14): `POLL_REM` completes with the residual bytes as its result, no event, `buf` cleared and the timer
stopped; everything else unchanged. -/
def Obligations.PollRemReturnsTheResidual : Prop :=
  ∀ (s : State) (r : Reassembler), s.inst? s.sel = some r → ∃ t, exec .pollRem s = .next t ∧
    t.resp = { result := .optBytes (if r.buf = [] then none else some r.buf), events := [] } ∧
    t.inst? s.sel = some { r with buf := [], timer := .stopped } ∧ OnlySelectedChanged s t

/-- R179 (decision D14): `POLL_READY` completes with the queued frames in stream order, no event, and empties the queue;
`buf`, `timer` and everything else unchanged. -/
def Obligations.PollReadyDrainsTheQueue : Prop :=
  ∀ (s : State) (r : Reassembler), s.inst? s.sel = some r → ∃ t, exec .pollReady s = .next t ∧
    t.resp = { result := .frames r.readyQ, events := [] } ∧
    t.inst? s.sel = some { r with readyQ := [] } ∧ OnlySelectedChanged s t

/-- R206 (a), R154, R57; the model's reading of the frame rows (log entry 4): a frame word of any of the four kinds
completes as the arrival of its bytes: exactly one `FrameReady`, as many bytes as a frame has (16 under R6) from the front
of what was held and what came, and as many bytes held after as before (R181 bounds what is held). -/
def Obligations.ArrivingFrameWordCompletesOneFrame : Prop :=
  ∀ (f : Frame) (i : Instr) (s : State) (r : Reassembler),
    i = .fVolt f ∨ i = .fAfecnt f ∨ i = .fRange f ∨ i = .fSpimode f →
    f.bytes.length = s.cfg.frameLen →
    s.inst? s.sel = some r → r.buf.length < s.cfg.frameLen → Room s.cfg r f.bytes →
      ∃ (t : State) (g : Frame) (residual : List Byte),
        exec i s = .next t ∧
        g.bytes ++ residual = r.buf ++ f.bytes ∧ residual.length = r.buf.length ∧
        t.resp = { result := .none, events := [.frameReady g] } ∧
        t.inst? s.sel = some { buf := residual, timer := if residual = [] then .stopped else .running r.idleWindow,
                               readyQ := r.readyQ ++ [g], idleWindow := r.idleWindow } ∧
        OnlySelectedChanged s t

/-- R154: a built frame pushed into a reassembler with an empty buffer comes out as one `FrameReady` carrying the same
bytes, 16 under R6 (a FRAME_LEN without room for the layout left out, log entry 22). -/
def Obligations.BuiltFrameComesOutOnce : Prop :=
  ∀ (i : Instr) (s t : State) (f : Frame) (r : Reassembler), 16 ≤ s.cfg.frameLen → i.isBuilder = true →
    exec i s = .next t → t.resp.result = .frame f → s.inst? s.sel = some r → r.buf = [] → Room s.cfg r f.bytes →
      ∃ u, exec (.rxPush f.bytes) t = .next u ∧ u.resp.events = [.frameReady f] ∧
        u.inst? s.sel = some { r with timer := .stopped, readyQ := r.readyQ ++ [f] }

/-- R232 (decision D20): a DEC operation on an instance that was never created is refused; so is an arriving frame. -/
def Obligations.DecOperationsNeedAnInstance : Prop :=
  ∀ (i : Instr) (s : State), i.isPure = false → i.isReset = false → s.inst? s.sel = none →
    exec i s = .refused (.noInstance s.sel)

/-- R184: pushing two chunks in one equals pushing them one after the other: the same instance, the same events in the
same order; and where MAX_CHUNK sets no bound, the other way round as well. -/
def Obligations.ChunkingDoesNotMatter : Prop :=
  (∀ (c1 c2 : List Byte) (s t : State), exec (.rxPush (c1 ++ c2)) s = .next t →
    ∃ u v, exec (.rxPush c1) s = .next u ∧ exec (.rxPush c2) u = .next v ∧
      (∀ k, v.inst? k = t.inst? k) ∧ t.resp.events = u.resp.events ++ v.resp.events) ∧
  ∀ (c1 c2 : List Byte) (s u v : State), s.cfg.maxChunk = none → exec (.rxPush c1) s = .next u →
    exec (.rxPush c2) u = .next v →
      ∃ t, exec (.rxPush (c1 ++ c2)) s = .next t ∧
        (∀ k, v.inst? k = t.inst? k) ∧ t.resp.events = u.resp.events ++ v.resp.events

/-- R183, R56: over any run of operations on one instance without `RX_RESET`, what was held and what arrived is what was
handed out, in order, followed by what is held. From a fresh instance nothing was held: `S = E ++ buf`. -/
def Obligations.NoByteIsLostOrReordered : Prop :=
  ∀ (ops : List Instr) (s t : State) (ps : List Response) (r : Reassembler),
    s.inst? s.sel = some r → (∀ i ∈ ops, i.isReset = false) → execAll ops s = some (t, ps) →
      ∃ r', t.inst? s.sel = some r' ∧
        r.buf ++ ops.flatMap (fun i => i.arriving.getD []) = ps.flatMap Response.delivered ++ r'.buf

/-- R185 (decision D15): while the timer runs with `d` ticks left, operations that are all `TICK` or `POLL_READY` complete
and emit nothing for the first `d - 1` ticks, and the `d`-th tick emits one `Remainder` of everything held. -/
def Obligations.IdleFlushComesAtTheEndOfTheWindow : Prop :=
  ∀ (ops : List Instr) (s : State) (r : Reassembler) (d : Nat),
    s.inst? s.sel = some r → r.buf ≠ [] → r.timer = .running d →
    (∀ i ∈ ops, i = .tick ∨ i = .pollReady) → ops.count .tick + 1 = d →
      ∃ t ps u, execAll ops s = some (t, ps) ∧ (∀ p ∈ ps, p.events = []) ∧
        exec .tick t = .next u ∧ u.resp.events = [.remainder r.buf] ∧
        ∃ r', u.inst? s.sel = some r' ∧ r'.buf = [] ∧ r'.timer = .stopped

/-- R185: at most 15 consecutive non-empty chunks can pass without a `FrameReady`: of as many as a frame has bytes, sixteen
under R6, at least one yields a frame. -/
def Obligations.SixteenNonemptyChunksYieldAFrame : Prop :=
  ∀ (chunks : List (List Byte)) (s t : State) (ps : List Response),
    0 < s.cfg.frameLen → chunks.length = s.cfg.frameLen → (∀ c ∈ chunks, c ≠ []) → execAll (chunks.map .rxPush) s = some (t, ps) →
      ∃ p ∈ ps, ∃ f, Event.frameReady f ∈ p.events

/-- R207 (decision D16): with bytes held and the last tick due, both orders of an arriving chunk and the deadline
complete. Deadline first: the held bytes leave as a `Remainder` and frames are cut from the chunk alone. Chunk first:
frames are cut from the held bytes and the chunk, no remainder comes, and the pending deadline is replaced. Frames are of
FRAME_LEN bytes, 16 under R6; that a FRAME_LEN of 0 cuts nothing is the model's choice (log entry 22). -/
def Obligations.ChunkAndDeadlineInEitherOrder : Prop :=
  ∀ (chunk : List Byte) (s : State) (r : Reassembler),
    s.inst? s.sel = some r → r.buf ≠ [] → r.timer = .running 1 → Room s.cfg r chunk →
      (∃ t fs b, execAll [.tick, .rxPush chunk] s =
          some (t, [{ result := .none, events := [.remainder r.buf] },
                    { result := .none, events := List.map Event.frameReady fs }]) ∧
        fs.flatMap Frame.bytes ++ b = chunk ∧ b.length = chunk.length % s.cfg.frameLen ∧
        t.inst? s.sel = some { buf := b, timer := if b = [] then .stopped else .running r.idleWindow,
                               readyQ := r.readyQ ++ fs, idleWindow := r.idleWindow }) ∧
      ∃ t fs b, execAll [.rxPush chunk] s =
          some (t, [{ result := .none, events := List.map Event.frameReady fs }]) ∧
        fs.flatMap Frame.bytes ++ b = r.buf ++ chunk ∧ b.length = (r.buf.length + chunk.length) % s.cfg.frameLen ∧
        t.inst? s.sel = some { buf := b, timer := if b = [] then .stopped else .running r.idleWindow,
                               readyQ := r.readyQ ++ fs, idleWindow := r.idleWindow }

/-- R187, R57: the decoder looks at no byte. Changing the bytes held and the bytes arriving by any function of a byte
changes the emitted and queued frames and the residual by that function and nothing else: the frames queued before, the
timer, the window, the result, every other instance and the rest of the state are the same. -/
def Obligations.DecoderLooksAtNoByte : Prop :=
  ∀ (g : Byte → Byte) (chunk : List Byte) (s t : State) (r : Reassembler),
    s.inst? s.sel = some r → exec (.rxPush chunk) s = .next t →
      ∃ t', exec (.rxPush (chunk.map g)) (s.setInst s.sel { r with buf := r.buf.map g }) = .next t' ∧
        t'.resp.events.map Event.payload = t.resp.events.map (fun e => e.payload.map g) ∧
        t'.resp.result = t.resp.result ∧ t'.cfg = t.cfg ∧ t'.sel = t.sel ∧ t'.requests = t.requests ∧
        (∀ k, k ≠ s.sel → t'.inst? k = t.inst? k) ∧
        ∃ (a b : Reassembler) (fs gs : List Frame), t.inst? s.sel = some a ∧ t'.inst? s.sel = some b ∧
          b.buf = a.buf.map g ∧ b.timer = a.timer ∧ b.idleWindow = a.idleWindow ∧
          a.readyQ = r.readyQ ++ fs ∧ b.readyQ = r.readyQ ++ gs ∧
          gs.map Frame.bytes = fs.map (fun f => f.bytes.map g)

/-- R33: two reassembler instances share nothing. An operation leaves every other instance as it is, and what it answers
and does to its own instance does not depend on any other; units PEC and ENC have no instance: they leave every one as it is,
and what they answer depends on none. -/
def Obligations.InstancesShareNothing : Prop :=
  (∀ (i : Instr) (s t : State), exec i s = .next t → OnlySelectedChanged s t) ∧
  (∀ (i : Instr) (s t : State), i.isPure = true → exec i s = .next t →
    (∀ k, t.inst? k = s.inst? k) ∧
    ∀ s' : State, s'.cfg = s.cfg → ∃ t', exec i s' = .next t' ∧ t'.resp = t.resp) ∧
  ∀ (i : Instr) (s s' t : State), s'.cfg = s.cfg → s'.sel = s.sel → s'.inst? s.sel = s.inst? s.sel →
    exec i s = .next t →
      ∃ t', exec i s' = .next t' ∧ t'.resp = t.resp ∧ t'.inst? s.sel = t.inst? s.sel

/-- R23 (decision D15), R32: the window of an instance is read-only after its creation: no operation but `RX_RESET`
changes it, and no operation writes the configuration. -/
def Obligations.OnlyResetChangesTheWindow : Prop :=
  ∀ (i : Instr) (s t : State), exec i s = .next t → t.cfg = s.cfg ∧
    (i.isReset = false → ∀ k r, s.inst? k = some r → ∃ r', t.inst? k = some r' ∧ r'.idleWindow = r.idleWindow)

/-- R207, R170, R206: a `FrameReady` comes only of bytes that arrive; a `Remainder` only of `RX_TIMEOUT` or `TICK`, and it
is always the only event of its operation. -/
def Obligations.EventsComeOfTheirOperations : Prop :=
  ∀ (i : Instr) (s t : State), exec i s = .next t →
    (∀ f, .frameReady f ∈ t.resp.events → i.arriving ≠ none) ∧
    ∀ b, .remainder b ∈ t.resp.events → (i = .rxTimeout ∨ i = .tick) ∧ t.resp.events = [.remainder b]

/-- R28, R182: between operations (under the invariant) `rx_state` is `Idle` exactly when `buf` is empty, and then the
timer is stopped; `Accumulating` exactly when at least one byte and fewer than a frame has, 1 to 15 under R6, are held, and
then a deadline is pending; `Idle` after reset.
The bounds of the deadline are R26's, whose counted timer is decision D15 (log entry 20). -/
def Obligations.RxStateFollowsBufferAndTimer : Prop :=
  (∀ (s : State) (k : Nat) (r : Reassembler), s.Inv → s.inst? k = some r →
    (r.rxState = .idle ↔ r.buf.length = 0) ∧ (r.rxState = .idle ↔ r.timer = .stopped) ∧
    (r.rxState = .accumulating ↔ 1 ≤ r.buf.length ∧ r.buf.length < s.cfg.frameLen) ∧
    (s.cfg.frameLen = 16 → (r.rxState = .accumulating ↔ 1 ≤ r.buf.length ∧ r.buf.length ≤ 15)) ∧
    (r.rxState = .accumulating → ∃ d, r.timer = .running d ∧ 1 ≤ d ∧ d ≤ r.idleWindow)) ∧
  ∀ (s t : State) (w : Nat), exec (.rxReset w) s = .next t → ∃ r, t.inst? s.sel = some r ∧ r.rxState = .idle

/-- R200, R171, R232: where the configuration sets no bound, every operation completes but for `RX_RESET 0` and a DEC
operation on an instance never created; nothing faults. -/
def Obligations.OnlyTheNamedRequestsAreRefused : Prop :=
  ∀ (i : Instr) (s : State), s.cfg.maxChunk = none → s.cfg.readyQDepth = none →
    (∃ t, exec i s = .next t) ∨ (i = .rxReset 0 ∧ exec i s = .refused .zeroWindow) ∨
    (i.isPure = false ∧ i.isReset = false ∧ s.inst? s.sel = none ∧ exec i s = .refused (.noInstance s.sel))
end

