-- ==== Sys2Proof/Laws/State.lean ====
section
/-! SUPPORT. The fields of the state after each named update, and the outcomes of the shared operations. -/

namespace Sys2Proof.Machine

variable (s : State) (k : Nat) (r : Reassembler) (x : Result) (es : List Event)

@[simp] theorem State.setInst_cfg : (s.setInst k r).cfg = s.cfg := rfl
@[simp] theorem State.setInst_insts : (s.setInst k r).insts = putInst k r s.insts := rfl
@[simp] theorem State.setInst_sel : (s.setInst k r).sel = s.sel := rfl
@[simp] theorem State.setInst_requests : (s.setInst k r).requests = s.requests := rfl
@[simp] theorem State.setInst_resp : (s.setInst k r).resp = s.resp := rfl

@[simp] theorem State.respond_cfg : (s.respond x es).cfg = s.cfg := rfl
@[simp] theorem State.respond_insts : (s.respond x es).insts = s.insts := rfl
@[simp] theorem State.respond_sel : (s.respond x es).sel = s.sel := rfl
@[simp] theorem State.respond_requests : (s.respond x es).requests = s.requests := rfl
@[simp] theorem State.respond_resp : (s.respond x es).resp = { result := x, events := es } := rfl
@[simp] theorem State.respond_inst? : (s.respond x es).inst? k = s.inst? k := rfl

@[simp] theorem Reassembler.fresh_buf (w : Nat) : (Reassembler.fresh w).buf = [] := rfl
@[simp] theorem Reassembler.fresh_timer (w : Nat) : (Reassembler.fresh w).timer = .stopped := rfl
@[simp] theorem Reassembler.fresh_readyQ (w : Nat) : (Reassembler.fresh w).readyQ = [] := rfl
@[simp] theorem Reassembler.fresh_idleWindow (w : Nat) : (Reassembler.fresh w).idleWindow = w := rfl

@[simp] theorem takeRequest_nil (h : s.requests = []) : takeRequest s = none := by
  simp [takeRequest, h]

theorem takeRequest_cons {q : Request} {rest : List Request} (h : s.requests = q :: rest) :
    takeRequest s = some (q.bytes, { s with requests := rest, sel := q.conn }) := by
  simp [takeRequest, h]

/-- All a taken request changes: the requests and the selection. -/
theorem takeRequest_some {bs : List Byte} {s' : State} (h : takeRequest s = some (bs, s')) :
    ∃ q rest, s.requests = q :: rest ∧ bs = q.bytes ∧ s' = { s with requests := rest, sel := q.conn } := by
  unfold takeRequest at h
  split at h
  · cases h
  · next q rest hq => exact ⟨q, rest, hq, by simp_all⟩

end Sys2Proof.Machine
end

