-- ==== Sys2Proof/Laws/Bytes.lean ====
section
/-! SUPPORT. Numbers, 16-bit fields and operands as bytes: what is written is read back. -/

namespace Sys2Proof

open Machine

/-! ### Sixteen-bit fields -/

@[simp] theorem joinBytes_hi_lo (v : Word16) : joinBytes (hiByte v) (loByte v) = v := by
  simp only [joinBytes, hiByte, loByte]
  ext i hi
  simp only [BitVec.getElem_append, BitVec.getElem_extractLsb']
  split
  · simp [← BitVec.getLsbD_eq_getElem]
  · rw [show 8 + (i - 8) = i by omega, BitVec.getLsbD_eq_getElem]

@[simp] theorem hiByte_joinBytes (hi lo : Byte) : hiByte (joinBytes hi lo) = hi := by
  simp only [joinBytes, hiByte]
  ext i hi'
  rw [BitVec.getElem_extractLsb']
  show (hi ++ lo : BitVec (8 + 8)).getLsbD (8 + i) = _
  rw [BitVec.getLsbD_append]
  simp [BitVec.getLsbD_eq_getElem hi']

@[simp] theorem loByte_joinBytes (hi lo : Byte) : loByte (joinBytes hi lo) = lo := by
  simp only [joinBytes, loByte]
  ext i hi'
  rw [BitVec.getElem_extractLsb']
  show (hi ++ lo : BitVec (8 + 8)).getLsbD (0 + i) = _
  rw [BitVec.getLsbD_append]
  simp [hi']

@[simp] theorem boolOfByte_boolByte (b : Bool) : boolOfByte (boolByte b) = .ok b := by cases b <;> rfl

/-! ### Numbers -/

@[simp] theorem length_leBytes (n v : Nat) : (leBytes n v).length = n := by
  induction n generalizing v with
  | zero => rfl
  | succ n ih => simp [leBytes, ih]

theorem natOfLe_leBytes (n v : Nat) : natOfLe (leBytes n v) = v % 256 ^ n := by
  induction n generalizing v with
  | zero => simp [leBytes, natOfLe, Nat.mod_one]
  | succ n ih =>
    rw [leBytes, natOfLe, ih, BitVec.toNat_ofNat]
    rw [show 2 ^ 8 = 256 from rfl, Nat.pow_succ 256 n, Nat.mul_comm (256 ^ n) 256, Nat.mod_mul]

@[simp] theorem length_beBytes (n v : Nat) : (beBytes n v).length = n := by simp [beBytes]

theorem natOfBe_beBytes {n v : Nat} (h : v < 256 ^ n) : natOfBe (beBytes n v) = v := by
  simp only [natOfBe, beBytes, List.reverse_reverse, natOfLe_leBytes, Nat.mod_eq_of_lt h]

theorem natOfLe_lt (bs : List Byte) : natOfLe bs < 256 ^ bs.length := by
  induction bs with
  | nil => simp [natOfLe]
  | cons b bs ih =>
    have hb := b.isLt
    simp only [natOfLe, List.length_cons, Nat.pow_succ]
    omega

@[simp] theorem length_signedBytes (k : Nat) (v : Int) : (signedBytes k v).length = k := by simp [signedBytes]

/-- A signed number that fits `k` bytes is read back from them. -/
theorem signedOfNat_signedBytes {k : Nat} {v : Int} (hlo : -(256 ^ k : Nat) ≤ 2 * v) (hhi : 2 * v < (256 ^ k : Nat)) :
    signedOfNat k (natOfBe (signedBytes k v)) = v := by
  have hpos : 0 < 256 ^ k := Nat.pow_pos (by decide)
  have hmod : (v % (256 ^ k : Nat)).toNat < 256 ^ k := by
    have := Int.emod_lt_of_pos v (b := ((256 ^ k : Nat) : Int)) (by exact_mod_cast hpos)
    have := Int.emod_nonneg v (b := ((256 ^ k : Nat) : Int)) (by omega)
    omega
  rw [signedBytes, natOfBe_beBytes hmod, signedOfNat]
  have hc : ((256 : Int) ^ k) = ((256 ^ k : Nat) : Int) := by push_cast; rfl
  rw [hc]
  generalize 256 ^ k = m at *
  by_cases hv : 0 ≤ v
  · rw [Int.emod_eq_of_lt hv (by omega)]
    split <;> omega
  · have hadd : v % (m : Int) = v + m := by
      rw [← Int.add_emod_right, Int.emod_eq_of_lt (by omega) (by omega)]
    rw [hadd]
    split <;> omega

/-! ### Operands -/

theorem uv_bounds {c : Config} {uv : Int} (h : uvInRange c uv = true) :
    -((256 ^ uvBytes c : Nat) : Int) ≤ 2 * uv ∧ 2 * uv < (256 ^ uvBytes c : Nat) := by
  have hle : 2 ^ c.uvWidth ≤ 256 ^ uvBytes c := by
    rw [show (256 : Nat) = 2 ^ 8 from rfl, ← Nat.pow_mul]
    refine Nat.pow_le_pow_right (by decide) ?_
    unfold uvBytes; omega
  have hc : ((2 : Int) ^ c.uvWidth) = ((2 ^ c.uvWidth : Nat) : Int) := by push_cast; rfl
  simp only [uvInRange, Bool.and_eq_true, decide_eq_true_eq, hc] at h
  omega

/-- A microvolt operand is read back from the front of the bytes, and the rest is left. -/
theorem takeUv_signedBytes {c : Config} {uv : Int} (h : uvInRange c uv = true) (rest : List Byte) :
    takeUv c (signedBytes (uvBytes c) uv ++ rest) = .ok (uv, rest) := by
  have hlen : (signedBytes (uvBytes c) uv).length = uvBytes c := length_signedBytes _ _
  have htake : (signedBytes (uvBytes c) uv ++ rest).take (uvBytes c) = signedBytes (uvBytes c) uv :=
    List.take_left' hlen
  have hdrop : (signedBytes (uvBytes c) uv ++ rest).drop (uvBytes c) = rest := List.drop_left' hlen
  have hv := signedOfNat_signedBytes (uv_bounds h).1 (uv_bounds h).2
  have hnot : ¬ (signedBytes (uvBytes c) uv ++ rest).length < uvBytes c := by simp
  simp only [takeUv, if_neg hnot, htake, hdrop, hv, h, if_true]

/-- A slot operand is read back from the front of the bytes, and the rest is left. -/
theorem takeSlot_encodeSlot {c : Config} {x : Slot} (h : slotInRange c x = true) (rest : List Byte) :
    takeSlot c (encodeSlot c x ++ rest) = .ok (x, rest) := by
  cases x with
  | lit v => simp [encodeSlot, takeSlot]
  | volt uv =>
    have ht : ¬ (0x01 : Byte) = 0x00 := by decide
    simp only [encodeSlot, List.cons_append, takeSlot, if_neg ht, if_true,
      takeUv_signedBytes (c := c) (uv := uv) h rest]

/-- A window is read back from its bytes. -/
theorem decodeWindow_windowBytes (c : Config) (w : Nat) : decodeWindow c (windowBytes w) = w := by
  have hlt : w < 256 ^ (w.log2 / 8 + 1) := by
    refine Nat.lt_of_lt_of_le (Nat.lt_log2_self (n := w)) ?_
    rw [show (256 : Nat) = 2 ^ 8 from rfl, ← Nat.pow_mul]
    exact Nat.pow_le_pow_right (by decide) (by omega)
  have hne : windowBytes w ≠ [] := by
    intro h0
    have := congrArg List.length h0
    simp [windowBytes] at this
  unfold decodeWindow
  split
  · next h0 => exact absurd h0 hne
  · exact natOfBe_beBytes hlt

end Sys2Proof
end

