-- ==== Sys2Proof/Laws/Insts.lean ====
section
/-! SUPPORT. The table of instances: read after write, and that every write keeps the canonical form. -/

namespace Sys2Proof.Machine

@[simp] theorem lookupInst_putInst_same (k : Nat) (r : Reassembler) (l : List (Nat × Reassembler)) :
    lookupInst k (putInst k r l) = some r := by
  induction l with
  | nil => simp [putInst, lookupInst]
  | cons p rest ih =>
    obtain ⟨j, q⟩ := p
    unfold putInst
    split
    · simp [lookupInst]
    · split
      · simp [lookupInst]
      · next h => simp [lookupInst, Ne.symm h, ih]

theorem lookupInst_putInst_other {j k : Nat} (h : j ≠ k) (r : Reassembler) (l : List (Nat × Reassembler)) :
    lookupInst j (putInst k r l) = lookupInst j l := by
  induction l with
  | nil => simp [putInst, lookupInst, Ne.symm h]
  | cons p rest ih =>
    obtain ⟨i, q⟩ := p
    unfold putInst
    split
    · simp [lookupInst, Ne.symm h]
    · split
      · next hk => subst hk; simp [lookupInst, Ne.symm h]
      · simp [lookupInst, ih]

@[simp] theorem State.inst?_setInst_same (s : State) (k : Nat) (r : Reassembler) :
    (s.setInst k r).inst? k = some r := lookupInst_putInst_same k r s.insts

theorem State.inst?_setInst_other (s : State) {j k : Nat} (h : j ≠ k) (r : Reassembler) :
    (s.setInst k r).inst? j = s.inst? j := lookupInst_putInst_other h r s.insts

theorem mem_putInst {p : Nat × Reassembler} {k : Nat} {r : Reassembler} {l : List (Nat × Reassembler)}
    (h : p ∈ putInst k r l) : p = (k, r) ∨ p ∈ l := by
  induction l with
  | nil => simpa [putInst] using h
  | cons q rest ih =>
    obtain ⟨j, w⟩ := q
    unfold putInst at h
    split at h
    · simpa using h
    · split at h
      · simp only [List.mem_cons] at h ⊢
        tauto
      · simp only [List.mem_cons] at h ⊢
        rcases h with h | h
        · tauto
        · rcases ih h with h | h <;> tauto

/-- Every write of an instance keeps the keys strictly rising. -/
theorem putInst_sorted {k : Nat} {r : Reassembler} {l : List (Nat × Reassembler)} (h : InstsSorted l) :
    InstsSorted (putInst k r l) := by
  induction l with
  | nil => simp [putInst, InstsSorted]
  | cons q rest ih =>
    obtain ⟨j, w⟩ := q
    have hrest : InstsSorted rest := by
      simp only [InstsSorted, List.map_cons, List.pairwise_cons] at h ⊢; exact h.2
    have hhead : ∀ a ∈ rest.map Prod.fst, j < a := by
      simp only [InstsSorted, List.map_cons, List.pairwise_cons] at h; exact h.1
    unfold putInst
    split
    · next hk =>
      simp only [InstsSorted, List.map_cons, List.pairwise_cons, List.mem_cons, forall_eq_or_imp]
      exact ⟨⟨hk, fun a ha => Nat.lt_trans hk (hhead a ha)⟩, hhead, hrest⟩
    · split
      · next hk =>
        subst hk
        simp only [InstsSorted, List.map_cons, List.pairwise_cons]
        exact ⟨hhead, hrest⟩
      · next hlt hne =>
        simp only [InstsSorted, List.map_cons, List.pairwise_cons]
        refine ⟨fun a ha => ?_, ih hrest⟩
        obtain ⟨p, hp, rfl⟩ := List.mem_map.1 ha
        rcases mem_putInst hp with rfl | hp
        · exact Nat.lt_of_le_of_ne (Nat.not_lt.1 hlt) (Ne.symm hne)
        · exact hhead _ (List.mem_map_of_mem hp)

/-- A found instance stands in the table. -/
theorem lookupInst_mem {k : Nat} {r : Reassembler} {l : List (Nat × Reassembler)} (h : lookupInst k l = some r) :
    (k, r) ∈ l := by
  induction l with
  | nil => simp [lookupInst] at h
  | cons p rest ih =>
    obtain ⟨j, q⟩ := p
    unfold lookupInst at h
    split at h
    · next hj => subst hj; simp_all
    · exact List.mem_cons_of_mem _ (ih h)

/-- The canonical form makes equal tables of equal contents: two sorted tables that answer every look-up alike are
the same list. -/
theorem lookupInst_ext {l m : List (Nat × Reassembler)} (hl : InstsSorted l) (hm : InstsSorted m)
    (h : ∀ k, lookupInst k l = lookupInst k m) : l = m := by
  have key : ∀ {n : List (Nat × Reassembler)} {j : Nat}, (∀ a ∈ n.map Prod.fst, j < a) → lookupInst j n = none := by
    intro n j hn
    induction n with
    | nil => rfl
    | cons p rest ih =>
      obtain ⟨i, q⟩ := p
      have hij : j < i := hn i (by simp)
      simp only [lookupInst, if_neg (Nat.ne_of_gt hij)]
      exact ih fun a ha => hn a (by simp [ha])
  induction l generalizing m with
  | nil =>
    cases m with
    | nil => rfl
    | cons p rest => have := h p.1; simp [lookupInst] at this
  | cons p rest ih =>
    obtain ⟨i, q⟩ := p
    cases m with
    | nil => have := h i; simp [lookupInst] at this
    | cons p' rest' =>
      obtain ⟨j, q'⟩ := p'
      simp only [InstsSorted, List.map_cons, List.pairwise_cons] at hl hm
      have hij : i = j := by
        rcases Nat.lt_trichotomy i j with hlt | heq | hgt
        · have h1 := h i
          rw [key (n := (j, q') :: rest') (j := i)] at h1
          · simp [lookupInst] at h1
          · intro a ha
            simp only [List.map_cons, List.mem_cons] at ha
            rcases ha with rfl | ha
            · exact hlt
            · exact Nat.lt_trans hlt (hm.1 a ha)
        · exact heq
        · have h1 := h j
          rw [key (n := (i, q) :: rest) (j := j)] at h1
          · simp [lookupInst] at h1
          · intro a ha
            simp only [List.map_cons, List.mem_cons] at ha
            rcases ha with rfl | ha
            · exact hgt
            · exact Nat.lt_trans hgt (hl.1 a ha)
      subst hij
      have hq : q = q' := by have := h i; simpa [lookupInst] using this
      subst hq
      have : rest = rest' := by
        refine ih hl.2 hm.2 fun k => ?_
        by_cases hk : i = k
        · subst hk; rw [key hl.1, key hm.1]
        · have := h k; simpa [lookupInst, hk] using this
      rw [this]

end Sys2Proof.Machine
end

