-- ==== Sys2Proof/Laws/Dec.lean ====
section
/-! SUPPORT. Unit DEC: everything the extraction loop, a push, a flush and a tick can do, said once. -/

namespace Sys2Proof.Machine

/-! ### The extraction loop (R172) -/

variable {len : Nat}

theorem cutLoop_succ_of_le {n : Nat} {b : List Byte} (h0 : 0 < len) (h : len ≤ b.length) :
    cutLoop len (n + 1) b = (⟨b.take len⟩ :: (cutLoop len n (b.drop len)).1, (cutLoop len n (b.drop len)).2) := by
  rw [cutLoop]; exact if_pos ⟨h0, h⟩

theorem cutLoop_of_short {n : Nat} {b : List Byte} (h : ¬ (0 < len ∧ len ≤ b.length)) :
    cutLoop len n b = ([], b) := by
  cases n with
  | zero => rfl
  | succ n => rw [cutLoop]; exact if_neg h

/-- Passes beyond what the bytes allow change nothing. -/
theorem cutLoop_enough {n m : Nat} {b : List Byte} (hn : b.length ≤ n) (hm : b.length ≤ m) :
    cutLoop len n b = cutLoop len m b := by
  induction n generalizing m b with
  | zero =>
    have : b = [] := List.length_eq_zero_iff.1 (Nat.le_zero.1 hn)
    subst this
    rw [cutLoop_of_short (by simp only [List.length_nil]; omega), cutLoop_of_short (by simp only [List.length_nil]; omega)]
  | succ n ih =>
    by_cases h : 0 < len ∧ len ≤ b.length
    · cases m with
      | zero => omega
      | succ m =>
        have hd : (b.drop len).length ≤ n ∧ (b.drop len).length ≤ m := by simp only [List.length_drop]; omega
        rw [cutLoop_succ_of_le h.1 h.2, cutLoop_succ_of_le h.1 h.2, ih hd.1 hd.2]
    · rw [cutLoop_of_short h, cutLoop_of_short h]

@[simp] theorem cutFrames_nil : cutFrames len [] = ([], []) := rfl

/-- Bytes from which nothing is cut: fewer than a frame's, or frames of no length. -/
theorem cutFrames_short {b : List Byte} (h : ¬ (0 < len ∧ len ≤ b.length)) : cutFrames len b = ([], b) :=
  cutLoop_of_short h

/-- One pass of the loop (R172): a frame's bytes in front of the rest. -/
theorem cutFrames_frame (h0 : 0 < len) {f : Frame} (hf : f.bytes.length = len) (b : List Byte) :
    cutFrames len (f.bytes ++ b) = (f :: (cutFrames len b).1, (cutFrames len b).2) := by
  have hle : len ≤ (f.bytes ++ b).length := by simp [hf]
  have hlen : (f.bytes ++ b).length = (len - 1 + b.length) + 1 := by simp only [List.length_append, hf]; omega
  unfold cutFrames
  rw [hlen, cutLoop_succ_of_le h0 hle, List.take_left' hf, List.drop_left' hf,
    cutLoop_enough (n := len - 1 + b.length) (m := b.length) (by omega) (Nat.le_refl _)]

/-- Induction along the extraction loop: bytes from which nothing is cut, or a frame in front of fewer bytes. -/
theorem frames_induction {P : List Byte → Prop} (len : Nat)
    (short : ∀ b : List Byte, ¬ (0 < len ∧ len ≤ b.length) → P b)
    (frame : ∀ (f : Frame) (b : List Byte), 0 < len → f.bytes.length = len → P b → P (f.bytes ++ b))
    (b : List Byte) : P b := by
  induction hn : b.length using Nat.strong_induction_on generalizing b with
  | _ n ih =>
    by_cases h : 0 < len ∧ len ≤ b.length
    · rw [← List.take_append_drop len b]
      exact frame ⟨b.take len⟩ (b.drop len) h.1 (List.length_take_of_le h.2)
        (ih (b.drop len).length (by simp only [List.length_drop]; omega) _ rfl)
    · exact short b h

/-- All the loop does (R172, R56): the frames in order and the residual are the bytes it was given. -/
theorem cutFrames_concat (b : List Byte) : (cutFrames len b).1.flatMap Frame.bytes ++ (cutFrames len b).2 = b := by
  induction b using frames_induction len with
  | short b h => simp [cutFrames_short h]
  | frame f b h0 hf ih => rw [cutFrames_frame h0 hf]; simp [ih]

/-- Every frame that is cut has the frame length (R8). -/
theorem cutFrames_frames_length (b : List Byte) : ∀ f ∈ (cutFrames len b).1, f.bytes.length = len := by
  induction b using frames_induction len with
  | short b h => simp [cutFrames_short h]
  | frame f b h0 hf ih => rw [cutFrames_frame h0 hf]; simpa [hf] using ih

/-- The loop leaves the length modulo the frame length (R172, R181). -/
theorem cutFrames_residual_length (b : List Byte) : (cutFrames len b).2.length = b.length % len := by
  induction b using frames_induction len with
  | short b h =>
    rw [cutFrames_short h]
    rcases Nat.eq_zero_or_pos len with rfl | h0
    · simp
    · exact (Nat.mod_eq_of_lt (by simp only; omega)).symm
  | frame f b h0 hf ih => rw [cutFrames_frame h0 hf, List.length_append, hf, Nat.add_mod_left]; exact ih

/-- The loop runs once for each whole frame's worth of bytes (R180). -/
theorem cutFrames_count (b : List Byte) : (cutFrames len b).1.length = b.length / len := by
  induction b using frames_induction len with
  | short b h =>
    rw [cutFrames_short h]
    rcases Nat.eq_zero_or_pos len with rfl | h0
    · simp
    · exact (Nat.div_eq_of_lt (by omega)).symm
  | frame f b h0 hf ih =>
    rw [cutFrames_frame h0 hf, List.length_append, hf, List.length_cons, ih, Nat.add_div_left _ h0]

/-- Cutting in two goes: what the first leaves is cut on with what follows (the reason of R184). -/
theorem cutFrames_append (a b : List Byte) :
    cutFrames len (a ++ b) =
      ((cutFrames len a).1 ++ (cutFrames len ((cutFrames len a).2 ++ b)).1,
        (cutFrames len ((cutFrames len a).2 ++ b)).2) := by
  induction a using frames_induction len with
  | short a h => rw [cutFrames_short h]; simp
  | frame f a h0 hf ih => rw [List.append_assoc, cutFrames_frame h0 hf, cutFrames_frame h0 hf, ih]; simp

/-! ### One instance -/

variable (len : Nat) (r : Reassembler) (chunk : List Byte)

@[simp] theorem Reassembler.push_frames : (r.push len chunk).2 = (cutFrames len (r.buf ++ chunk)).1 := rfl
@[simp] theorem Reassembler.push_buf : (r.push len chunk).1.buf = (cutFrames len (r.buf ++ chunk)).2 := rfl
@[simp] theorem Reassembler.push_readyQ :
    (r.push len chunk).1.readyQ = r.readyQ ++ (cutFrames len (r.buf ++ chunk)).1 := rfl
@[simp] theorem Reassembler.push_idleWindow : (r.push len chunk).1.idleWindow = r.idleWindow := rfl
@[simp] theorem Reassembler.push_timer :
    (r.push len chunk).1.timer = timerFor (cutFrames len (r.buf ++ chunk)).2 r.idleWindow := rfl

theorem timerFor_eq (b : List Byte) (w : Nat) : timerFor b w = if b = [] then .stopped else .running w := by
  cases b <;> rfl

/-- A flush (R176) empties the buffer and stops the timer, and touches nothing else. -/
@[simp] theorem Reassembler.flush_fst : r.flush.1 = { r with buf := [], timer := .stopped } := by
  unfold Reassembler.flush
  split
  · next h => simp [h]
  · rfl

/-- A flush hands out the residual bytes, if there are any (R176). -/
theorem Reassembler.flush_snd : r.flush.2 = if r.buf = [] then none else some r.buf := by
  unfold Reassembler.flush
  split <;> next h => simp [h]

@[simp] theorem Reassembler.timeout_fst : r.timeout.1 = { r with buf := [], timer := .stopped } := r.flush_fst

theorem Reassembler.timeout_snd : r.timeout.2 = if r.buf = [] then [] else [.remainder r.buf] := by
  unfold Reassembler.timeout
  rw [Reassembler.flush_snd]
  split <;> rfl

/-- All a tick can do (R174): nothing, count down, or time out. -/
theorem Reassembler.tick_cases :
    (r.timer = .stopped ∧ r.tick = (r, [])) ∨
    (∃ d, d ≤ 1 ∧ r.timer = .running d ∧ r.tick = r.timeout) ∨
    (∃ d, 1 < d ∧ r.timer = .running d ∧ r.tick = ({ r with timer := .running (d - 1) }, [])) := by
  unfold Reassembler.tick
  split
  · next h => exact .inl ⟨h, rfl⟩
  · next h => exact .inr (.inl ⟨0, by omega, h, rfl⟩)
  · next h => exact .inr (.inl ⟨1, by omega, h, rfl⟩)
  · next d h => exact .inr (.inr ⟨d + 2, by omega, h, rfl⟩)

/-! ### The invariant of one instance -/

variable {r}

theorem Reassembler.fresh_inv {c : Config} {w : Nat} (hl : 0 < c.frameLen) (hw : 1 ≤ w) :
    (Reassembler.fresh w).Inv c := by
  refine ⟨by simpa using hl, by simp [Reassembler.TimerAgrees], hw, ?_, by simp [FramesOk]⟩
  simp only [Reassembler.fresh_readyQ, queueFits]
  split <;> simp

theorem Reassembler.push_inv {c : Config} (h : r.Inv c)
    (hq : queueFits c (r.push c.frameLen chunk).1.readyQ = true) : (r.push c.frameLen chunk).1.Inv c := by
  refine ⟨?_, ?_, h.2.2.1, hq, ?_⟩
  · rw [Reassembler.push_buf, cutFrames_residual_length]; exact Nat.mod_lt _ (Nat.zero_lt_of_lt h.1)
  · simp only [Reassembler.TimerAgrees, Reassembler.push_timer, timerFor_eq, Reassembler.push_buf,
      Reassembler.push_idleWindow]
    split
    · next h => split at h <;> simp_all
    · next h' => split at h' <;> simp_all [Reassembler.Inv]
  · intro f hf
    rw [Reassembler.push_readyQ, List.mem_append] at hf
    exact hf.elim (h.2.2.2.2 f) (cutFrames_frames_length _ f)

theorem Reassembler.flush_inv {c : Config} (h : r.Inv c) :
    Reassembler.Inv c { r with buf := [], timer := .stopped } :=
  ⟨Nat.zero_lt_of_lt h.1, by simp [Reassembler.TimerAgrees], h.2.2.1, h.2.2.2⟩

theorem Reassembler.tick_inv {c : Config} (h : r.Inv c) : r.tick.1.Inv c := by
  rcases r.tick_cases with ⟨-, ht⟩ | ⟨d, -, -, ht⟩ | ⟨d, hd, hr, ht⟩
  · rw [ht]; exact h
  · rw [ht, Reassembler.timeout_fst]; exact flush_inv h
  · rw [ht]
    have hagree := h.2.1
    simp only [Reassembler.TimerAgrees, hr] at hagree
    have hle : d - 1 ≤ r.idleWindow := by omega
    exact ⟨h.1, ⟨hagree.1, by omega, hle⟩, h.2.2.1, h.2.2.2⟩

theorem Reassembler.poll_inv {c : Config} (h : r.Inv c) : Reassembler.Inv c { r with readyQ := [] } :=
  ⟨h.1, h.2.1, h.2.2.1, by simp only [queueFits]; split <;> simp, by simp [FramesOk]⟩

end Sys2Proof.Machine
end

