-- ==== Sys2Proof/Laws/Enc.lean ====
section
/-! SUPPORT. Unit ENC: what the shared frame constructor places (41_frame_encoder.md R144). -/

namespace Sys2Proof.Machine

/-! ### Closing a frame by its checksum -/

@[simp] theorem withChecksum_length (p : List Byte) : (withChecksum p).bytes.length = p.length + 1 := by
  simp [withChecksum]

/-- All offsets but the last: the bytes as placed. -/
@[simp] theorem withChecksum_take (p : List Byte) : (withChecksum p).bytes.take p.length = p := List.take_left

/-- The last offset: the checksum of all before it. -/
@[simp] theorem withChecksum_last (p : List Byte) : frameByte (withChecksum p) p.length = chksum8 p := by
  simp [frameByte, withChecksum]

/-- An offset before the last: the byte as placed. -/
theorem withChecksum_byte {p : List Byte} {k : Nat} (h : k < p.length) :
    frameByte (withChecksum p) k = p.getD k 0 := by
  simp [frameByte, withChecksum, List.getElem?_append_left h]

/-! ### The frame constructor -/

variable (c : Config) (b2 b3 b4 b5 b6 b7 b8 b9 b10 b11 b12 b13 b14 : Byte)

/-- Offsets 0..14: the sync header and the bytes the builder chose, whatever FRAME_LEN is. -/
@[simp] theorem finish_take_15 : (finish c b2 b3 b4 b5 b6 b7 b8 b9 b10 b11 b12 b13 b14).bytes.take 15 =
    [c.sync0, c.sync1, b2, b3, b4, b5, b6, b7, b8, b9, b10, b11, b12, b13, b14] := rfl

variable (h : 16 ≤ c.frameLen)
include h

theorem length_placed (xs : List Byte) (hx : xs.length = 15) :
    (xs ++ List.replicate (c.frameLen - 16) (0x00 : Byte)).length = c.frameLen - 1 := by
  rw [List.length_append, List.length_replicate, hx]; omega

/-- A finished frame has FRAME_LEN bytes. -/
theorem finish_length : (finish c b2 b3 b4 b5 b6 b7 b8 b9 b10 b11 b12 b13 b14).bytes.length = c.frameLen := by
  rw [finish, withChecksum_length, length_placed c h _ rfl]; omega

/-- Between offset 14 and the last: zeros, where there is more payload than R6's. -/
theorem finish_zeros {k : Nat} (hk : 15 ≤ k) (hlt : k + 1 < c.frameLen) :
    frameByte (finish c b2 b3 b4 b5 b6 b7 b8 b9 b10 b11 b12 b13 b14) k = 0x00 := by
  rw [finish, withChecksum_byte (by rw [length_placed c h _ rfl]; omega), List.getD_append_right _ _ _ _ hk]
  simp

/-- The last offset, 15 under R6: the checksum of all before it as placed. -/
theorem finish_last : frameByte (finish c b2 b3 b4 b5 b6 b7 b8 b9 b10 b11 b12 b13 b14) (c.frameLen - 1) =
    chksum8 ((finish c b2 b3 b4 b5 b6 b7 b8 b9 b10 b11 b12 b13 b14).bytes.take (c.frameLen - 1)) := by
  rw [finish, ← length_placed c h [c.sync0, c.sync1, b2, b3, b4, b5, b6, b7, b8, b9, b10, b11, b12, b13, b14] rfl,
    withChecksum_take, withChecksum_last]

end Sys2Proof.Machine
end

