-- ==== Sys2Proof/Laws/Exec.lean ====
section
/-! SUPPORT. Everything an operation can do, said once: the outcome of each shared operation, and one inversion lemma
over all instructions. Later proofs cite these and do not unfold exec. -/

namespace Sys2Proof.Machine

variable {s t : State}

/-! ### The bounds a configuration may set -/

theorem chunkFits_iff {c : Config} {chunk : List Byte} :
    chunkFits c chunk = true ↔ ∀ n, c.maxChunk = some n → chunk.length ≤ n := by
  unfold chunkFits
  split <;> simp_all

theorem queueFits_iff {c : Config} {q : List Frame} :
    queueFits c q = true ↔ ∀ n, c.readyQDepth = some n → q.length ≤ n := by
  unfold queueFits
  split <;> simp_all

/-- Room for a chunk is exactly what a push checks. -/
theorem room_iff {c : Config} {r : Reassembler} {chunk : List Byte} :
    Room c r chunk ↔ chunkFits c chunk = true ∧ queueFits c (r.push c.frameLen chunk).1.readyQ = true := by
  rw [chunkFits_iff, queueFits_iff, Room]
  simp only [Reassembler.push_readyQ, List.length_append, cutFrames_count]

/-- Without configured bounds there is always room (R6, the default). -/
theorem room_of_unbounded {c : Config} (hm : c.maxChunk = none) (hq : c.readyQDepth = none) (r : Reassembler)
    (chunk : List Byte) : Room c r chunk := ⟨by simp [hm], by simp [hq]⟩

/-! ### The shared operations -/

theorem onInst_of_some {op : Reassembler → Reassembler × Result × List Event} {r : Reassembler}
    (h : s.inst? s.sel = some r) :
    onInst op s = .next ((s.setInst s.sel (op r).1).respond (op r).2.1 (op r).2.2) := by
  simp [onInst, h]

theorem onInst_of_none {op : Reassembler → Reassembler × Result × List Event} (h : s.inst? s.sel = none) :
    onInst op s = .refused (.noInstance s.sel) := by
  simp [onInst, h]

theorem onInst_next {op : Reassembler → Reassembler × Result × List Event} (h : onInst op s = .next t) :
    ∃ r, s.inst? s.sel = some r ∧ t = (s.setInst s.sel (op r).1).respond (op r).2.1 (op r).2.2 := by
  cases hr : s.inst? s.sel with
  | none => simp [onInst_of_none hr] at h
  | some r => rw [onInst_of_some hr] at h; exact ⟨r, rfl, by simpa using h.symm⟩

/-- The state after a push on instance `r`. -/
def pushed (s : State) (r : Reassembler) (chunk : List Byte) : State :=
  (s.setInst s.sel (r.push s.cfg.frameLen chunk).1).respond .none ((r.push s.cfg.frameLen chunk).2.map .frameReady)

@[simp] theorem pushed_cfg (r : Reassembler) (chunk : List Byte) : (pushed s r chunk).cfg = s.cfg := rfl
@[simp] theorem pushed_sel (r : Reassembler) (chunk : List Byte) : (pushed s r chunk).sel = s.sel := rfl
@[simp] theorem pushed_requests (r : Reassembler) (chunk : List Byte) : (pushed s r chunk).requests = s.requests := rfl
@[simp] theorem pushed_resp (r : Reassembler) (chunk : List Byte) : (pushed s r chunk).resp =
    { result := .none, events := (cutFrames s.cfg.frameLen (r.buf ++ chunk)).1.map .frameReady } := rfl
@[simp] theorem pushed_inst?_same (r : Reassembler) (chunk : List Byte) :
    (pushed s r chunk).inst? s.sel = some (r.push s.cfg.frameLen chunk).1 := State.inst?_setInst_same s s.sel _
theorem pushed_inst?_other (r : Reassembler) (chunk : List Byte) {k : Nat} (h : k ≠ s.sel) :
    (pushed s r chunk).inst? k = s.inst? k := State.inst?_setInst_other s h _

theorem pushBytes_of_room {r : Reassembler} {chunk : List Byte} (h : s.inst? s.sel = some r)
    (hroom : Room s.cfg r chunk) : pushBytes chunk s = .next (pushed s r chunk) := by
  rw [room_iff] at hroom
  simp only [pushBytes, h, hroom.1, hroom.2, if_true, pushed]

theorem pushBytes_of_none {chunk : List Byte} (h : s.inst? s.sel = none) :
    pushBytes chunk s = .refused (.noInstance s.sel) := by
  simp [pushBytes, h]

theorem pushBytes_next {chunk : List Byte} (h : pushBytes chunk s = .next t) :
    ∃ r, s.inst? s.sel = some r ∧ Room s.cfg r chunk ∧ t = pushed s r chunk := by
  unfold pushBytes at h
  split at h
  · simp at h
  · next r hr =>
    split at h
    · next hc =>
      split at h
      · next hq => exact ⟨r, hr, room_iff.2 ⟨hc, hq⟩, by simpa [pushed] using h.symm⟩
      · simp at h
    · simp at h

/-! ### All instructions -/

/-- An operation of units PEC and ENC always completes, with a result that is a function of the configuration and its
operands alone, its frame of FRAME_LEN bytes (R8), no event and nothing written (R10, R120). -/
theorem exec_pure {i : Instr} (h : i.isPure = true) :
    ∃ f : Config → Result, (∀ c, 16 ≤ c.frameLen → (f c).LengthOk c) ∧ ∀ s, exec i s = .next (s.respond (f s.cfg) []) := by
  cases i <;> simp only [Instr.isPure, Bool.false_eq_true] at h
  case pec15 d => exact ⟨fun c => .word16 (pec15 c d), fun _ _ => trivial, fun _ => rfl⟩
  case pec10 wc d => exact ⟨fun c => .word16 (pec10 c wc d), fun _ _ => trivial, fun _ => rfl⟩
  case chksum8 d => exact ⟨fun _ => .byte (chksum8 d), fun _ _ => trivial, fun _ => rfl⟩
  case chkok f => exact ⟨fun c => .bool (chkok c f), fun _ _ => trivial, fun _ => rfl⟩
  case vconv uv => exact ⟨fun c => .word16 (vconv c uv), fun _ _ => trivial, fun _ => rfl⟩
  case bldVolt cmd a s1 s2 s3 pc =>
    exact ⟨fun c => .frame (bldVolt c cmd a s1 s2 s3 pc), fun c h => finish_length c _ _ _ _ _ _ _ _ _ _ _ _ _ h, fun _ => rfl⟩
  case bldAfecnt n b => exact ⟨fun c => .frame (bldAfecnt c n b), fun c h => finish_length c _ _ _ _ _ _ _ _ _ _ _ _ _ h, fun _ => rfl⟩
  case bldRange ct si ei sv st => exact ⟨fun c => .frame (bldRange c ct si ei sv st), fun c h => finish_length c _ _ _ _ _ _ _ _ _ _ _ _ _ h, fun _ => rfl⟩
  case bldSpimode m => exact ⟨fun c => .frame (bldSpimode c m), fun c h => finish_length c _ _ _ _ _ _ _ _ _ _ _ _ _ h, fun _ => rfl⟩

/-- An operation that brings bytes is a push of them (R172, R206 (a)). -/
theorem exec_arriving {i : Instr} {chunk : List Byte} (h : i.arriving = some chunk) (s : State) :
    exec i s = pushBytes chunk s := by
  cases i <;> simp only [Instr.arriving, Option.some.injEq, reduceCtorEq] at h <;> subst h <;> rfl

theorem exec_rxReset {w : Nat} (hw : 1 ≤ w) (s : State) :
    exec (.rxReset w) s = .next ((s.setInst s.sel (.fresh w)).respond .none []) := by
  simp [exec, execRxReset, Nat.one_le_iff_ne_zero.1 hw]

/-- Everything an operation that completes can do. -/
theorem exec_next {i : Instr} (h : exec i s = .next t) :
    (i.isPure = true ∧ ∃ x : Result, (16 ≤ s.cfg.frameLen → x.LengthOk s.cfg) ∧ t = s.respond x []) ∨
    (∃ w, i = .rxReset w ∧ 1 ≤ w ∧ t = (s.setInst s.sel (.fresh w)).respond .none []) ∨
    (∃ chunk r, i.arriving = some chunk ∧ s.inst? s.sel = some r ∧ Room s.cfg r chunk ∧ t = pushed s r chunk) ∨
    (∃ r, i = .rxTimeout ∧ s.inst? s.sel = some r ∧
      t = (s.setInst s.sel r.timeout.1).respond .none r.timeout.2) ∨
    (∃ r, i = .tick ∧ s.inst? s.sel = some r ∧ t = (s.setInst s.sel r.tick.1).respond .none r.tick.2) ∨
    (∃ r, i = .pollReady ∧ s.inst? s.sel = some r ∧
      t = (s.setInst s.sel { r with readyQ := [] }).respond (.frames r.readyQ) []) ∨
    (∃ r, i = .pollRem ∧ s.inst? s.sel = some r ∧
      t = (s.setInst s.sel r.flush.1).respond (.optBytes r.flush.2) []) := by
  cases hp : i.isPure with
  | true =>
    obtain ⟨f, hf, he⟩ := exec_pure hp
    rw [he] at h
    exact .inl ⟨rfl, f s.cfg, hf _, by simpa using h.symm⟩
  | false =>
    refine .inr ?_
    cases ha : i.arriving with
    | some chunk =>
      rw [exec_arriving ha] at h
      obtain ⟨r, hr, hroom, rfl⟩ := pushBytes_next h
      exact .inr (.inl ⟨chunk, r, rfl, hr, hroom, rfl⟩)
    | none =>
      cases i <;> simp only [Instr.isPure, Instr.arriving, reduceCtorEq, Bool.true_eq_false] at hp ha
      case rxReset w =>
        simp only [exec, execRxReset] at h
        split at h
        · simp at h
        · next hw => exact .inl ⟨w, rfl, by omega, by simpa using h.symm⟩
      case rxTimeout => obtain ⟨r, hr, rfl⟩ := onInst_next h; exact .inr (.inr (.inl ⟨r, rfl, hr, rfl⟩))
      case tick => obtain ⟨r, hr, rfl⟩ := onInst_next h; exact .inr (.inr (.inr (.inl ⟨r, rfl, hr, rfl⟩)))
      case pollReady =>
        obtain ⟨r, hr, rfl⟩ := onInst_next h; exact .inr (.inr (.inr (.inr (.inl ⟨r, rfl, hr, rfl⟩))))
      case pollRem =>
        obtain ⟨r, hr, rfl⟩ := onInst_next h; exact .inr (.inr (.inr (.inr (.inr ⟨r, rfl, hr, rfl⟩))))

/-- One step: nothing, or the decoded request run on the state it was taken from (R60). -/
theorem step_cases (h : step s = .next t) :
    (s.requests = [] ∧ t = s) ∨
    ∃ q rest i, s.requests = q :: rest ∧ decode s.cfg q.bytes = .ok i ∧
      exec i { s with requests := rest, sel := q.conn } = .next t := by
  unfold step at h
  split at h
  · next hq =>
    refine .inl ⟨?_, by simpa using h.symm⟩
    unfold takeRequest at hq
    split at hq
    · assumption
    · cases hq
  · next bs s' hq =>
    obtain ⟨q, rest, hreq, rfl, rfl⟩ := takeRequest_some s hq
    split at h
    · simp at h
    · next i hi => exact .inr ⟨q, rest, i, hreq, hi, h⟩

end Sys2Proof.Machine
end

