-- ==== Sys2Proof/Laws/Pec.lean ====
section
/-! SUPPORT. Unit PEC: the division steps are linear over GF(2), and a division goes on where it stopped. -/

namespace Sys2Proof.Machine

variable {n : Nat} (poly a b : BitVec n)

/-- One division step is linear in the pair of remainder and data bit (R113's reason). -/
theorem step1_xor (d e : Bool) : step1 poly a d ^^^ step1 poly b e = step1 poly (a ^^^ b) (d ^^ e) := by
  have hmsb : (a ^^^ b).msb = (a.msb ^^ b.msb) := by simp
  have hshift : (a ^^^ b) <<< 1 = (a <<< 1) ^^^ (b <<< 1) := BitVec.shiftLeft_xor_distrib a b 1
  unfold step1
  rw [hmsb, hshift]
  cases ha : a.msb <;> cases hb : b.msb <;> cases d <;> cases e <;>
    simp only [Bool.xor_false, Bool.xor_true, Bool.not_true, Bool.not_false,
      if_true, Bool.false_eq_true, if_false] <;>
    ext i hi <;> simp only [BitVec.getElem_xor] <;>
    cases (a <<< 1)[i] <;> cases (b <<< 1)[i] <;> cases poly[i] <;> rfl

theorem bitsOf_xor (x y : Byte) : bitsOf (x ^^^ y) = List.zipWith (· ^^ ·) (bitsOf x) (bitsOf y) := by
  simp [bitsOf]

/-- One byte step is linear in the pair of remainder and byte. -/
theorem step8_xor (x y : Byte) : step8 poly a x ^^^ step8 poly b y = step8 poly (a ^^^ b) (x ^^^ y) := by
  simp only [step8, bitsOf, List.foldl_cons, List.foldl_nil, step1_xor, BitVec.getLsbD_xor]

/-- The tail of zero bits (R115) is linear in the remainder. -/
theorem zeroBits_xor (k : Nat) : zeroBits poly k a ^^^ zeroBits poly k b = zeroBits poly k (a ^^^ b) := by
  induction k generalizing a b with
  | zero => rfl
  | succ k ih => rw [zeroBits, zeroBits, zeroBits, ih, step1_xor, Bool.xor_false]

@[simp] theorem divide_nil : divide poly a [] = a := rfl

@[simp] theorem divide_cons (x : Byte) (data : List Byte) :
    divide poly a (x :: data) = divide poly (step8 poly a x) data := rfl

end Sys2Proof.Machine
end

