-- ==== Sys2Proof/Laws/PerInstr.lean ====
section
/-! SUPPORT. Statements about every instruction as syntax, one lemma per constructor. SelectByte: a well-formed
request's bytes begin with its own select code, and a frame word's with the sync byte (30_encoding.md R93, R98). -/

namespace Sys2Proof.Laws.SelectByte

open Sys2Proof Sys2Proof.Machine

/-- A well-formed instruction's bytes begin with its select byte. -/
def Statement (i : Instr) : Prop := ∀ c : Config, i.wf c = true → (encode c i).head? = some (selectByte c i)

theorem head_of_kind {c : Config} {f : Frame} {k : FrameKind} (h : (frameFits c f && kindOf c f == some k) = true) :
    f.bytes.head? = some c.sync0 := by
  have hs : f.bytes.take 2 = [c.sync0, c.sync1] := by
    by_contra hne
    simp [kindOf, hne] at h
  have ht : (f.bytes.take 2).head? = f.bytes.head? := by cases f.bytes <;> rfl
  rw [← ht, hs]; rfl

theorem pec15 (data : List Byte) : Statement (.pec15 data) := fun _ _ => rfl
theorem pec10 (wc : Bool) (data : List Byte) : Statement (.pec10 wc data) := fun _ _ => rfl
theorem chksum8 (data : List Byte) : Statement (.chksum8 data) := fun _ _ => rfl
theorem chkok (f : Frame) : Statement (.chkok f) := fun _ _ => rfl
theorem vconv (uv : Int) : Statement (.vconv uv) := fun _ _ => rfl
theorem bldVolt (cmd : CmdWord) (afeIndex : Byte) (s1 s2 s3 : Slot) (pecCorrupt : Bool) :
    Statement (.bldVolt cmd afeIndex s1 s2 s3 pecCorrupt) := fun _ _ => rfl
theorem bldAfecnt (totalCount : Byte) (initFlag : Bool) : Statement (.bldAfecnt totalCount initFlag) := fun _ _ => rfl
theorem bldRange (cmdTypeCode startIndex endIndex : Byte) (start : Slot) (step : Word16) :
    Statement (.bldRange cmdTypeCode startIndex endIndex start step) := fun _ _ => rfl
theorem bldSpimode (mode : Byte) : Statement (.bldSpimode mode) := fun _ _ => rfl
theorem rxReset (idleWindow : Nat) : Statement (.rxReset idleWindow) := fun _ _ => rfl
theorem rxPush (chunk : List Byte) : Statement (.rxPush chunk) := fun _ _ => rfl
theorem rxTimeout : Statement .rxTimeout := fun _ _ => rfl
theorem tick : Statement .tick := fun _ _ => rfl
theorem pollReady : Statement .pollReady := fun _ _ => rfl
theorem pollRem : Statement .pollRem := fun _ _ => rfl
theorem fVolt (f : Frame) : Statement (.fVolt f) := fun _ h => head_of_kind h
theorem fAfecnt (f : Frame) : Statement (.fAfecnt f) := fun _ h => head_of_kind h
theorem fRange (f : Frame) : Statement (.fRange f) := fun _ h => head_of_kind h
theorem fSpimode (f : Frame) : Statement (.fSpimode f) := fun _ h => head_of_kind h

end Sys2Proof.Laws.SelectByte
end

