-- ==== Sys2Proof/Tests/Slice0.lean ====
section
/-! SUPPORT. The model's own tests: the well-formedness checks, one word per constructor written out from the spec's
codes, the worked examples and vectors of 95_test_vectors.md, the tables of 40_pec_engine.md sections 4 and 5, and for
every statement with hypotheses a concrete case that meets them. -/

namespace Sys2Proof.Tests

open Sys2Proof.Machine

/-! ### Small states -/

/-- The machine with connection 0's instance as given. -/
def withInst (r : Reassembler) : State := { State.reset with insts := [(0, r)] }

/-- Three bytes held, 57 ticks left (95_test_vectors.md Q6). -/
def held : State := withInst { buf := [1, 2, 3], timer := .running 57, readyQ := [], idleWindow := 100 }

/-- Two bytes held, the last tick due (95_test_vectors.md Q5). -/
def due : State := withInst { buf := [0xDE, 0xAD], timer := .running 1, readyQ := [], idleWindow := 100 }

/-- Frame A of 95_test_vectors.md section 2.8, which `BLD_AFECNT 5, true` builds (S3). -/
def frameA : Frame := ⟨[0x55, 0xAA, 0x00, 0x00, 0x80, 0x01, 0x00, 0x05, 0x01, 0, 0, 0, 0, 0, 0, 0x86]⟩

/-- Frame B of section 2.8. -/
def frameB : Frame := ⟨[0x55, 0xAA, 0x00, 0x00, 0x80, 0x20, 0x00, 0x02, 0, 0, 0, 0, 0, 0, 0, 0xA1]⟩

/-- Frame C of section 2.8. -/
def frameC : Frame := ⟨[0x55, 0xAA, 0x00, 0x00, 0x80, 0x10, 0x00, 0x01, 0x00, 0x04, 0x27, 0x10, 0x00, 0x32, 0, 0xFD]⟩

/-- Frame W of program P3. -/
def frameW : Frame :=
  ⟨[0x55, 0xAA, 0x00, 0x04, 0x07, 0xC2, 0x01, 0xE0, 0x2E, 0x34, 0x12, 0x50, 0x46, 0x01, 0xDA, 0x92]⟩

/-- The machine with Frame A queued. -/
def queued : State := withInst { buf := [], timer := .stopped, readyQ := [frameA], idleWindow := 100 }

/-- A configuration that bounds a chunk to 20 bytes and the queue to 2 frames (92 D14, D19). -/
def bounded (buf : List Byte) (q : List Frame) : State :=
  { withInst { buf := buf, timer := .stopped, readyQ := q, idleWindow := 100 } with
    cfg := { defaultConfig with maxChunk := some 20, readyQDepth := some 2 } }

/-- The machine with WC_TAIL_BITS = 6. -/
def tailed : State := { State.reset with cfg := { defaultConfig with wcTail := .six } }

/-- The machine with a FRAME_LEN other than R6's, 20 bytes (log entry 22). -/
def longer : State := { State.reset with cfg := { defaultConfig with frameLen := 20 } }

/-- The machine with ROUND_MODE = ties to even. -/
def toEven : State := { State.reset with cfg := { defaultConfig with roundMode := .tiesEven } }

/-- The response of a step that completes. -/
def respOf (o : Host.Outcome State Fault Refusal) : Option (Result × List Event) :=
  match o with
  | .next t => some (t.resp.result, t.resp.events)
  | .fault _ => none
  | .refused _ => none

/-- Buffer, timer and queue length of connection 0's instance after a step that completes: the triple 95 section 2.8
writes. -/
def triple (o : Host.Outcome State Fault Refusal) : Option (List Byte × Timer × Nat) :=
  match o with
  | .next t => (t.inst? 0).map fun r => (r.buf, r.timer, r.readyQ.length)
  | .fault _ => none
  | .refused _ => none

/-! ### Well-formedness: an ill-formed term for each check -/

theorem test_wf_vconv_too_large : Instr.wf defaultConfig (.vconv 2147483648) = false := by decide
theorem test_wf_vconv_too_small : Instr.wf defaultConfig (.vconv (-2147483649)) = false := by decide
theorem test_wf_slot1 : Instr.wf defaultConfig (.bldVolt ⟨0, 0, 0, 0⟩ 0 (.volt 2147483648) (.lit 0) (.lit 0) false) = false := by decide
theorem test_wf_slot2 : Instr.wf defaultConfig (.bldVolt ⟨0, 0, 0, 0⟩ 0 (.lit 0) (.volt 2147483648) (.lit 0) false) = false := by decide
theorem test_wf_slot3 : Instr.wf defaultConfig (.bldVolt ⟨0, 0, 0, 0⟩ 0 (.lit 0) (.lit 0) (.volt 2147483648) false) = false := by decide
theorem test_wf_range_start : Instr.wf defaultConfig (.bldRange 0 0 0 (.volt (-2147483649)) 0) = false := by decide
theorem test_wf_window : Instr.wf defaultConfig (.rxReset 0) = false := by decide
theorem test_wf_chkok : Instr.wf defaultConfig (.chkok ⟨frameA.bytes ++ [0]⟩) = false := by decide
theorem test_wf_frame_word_length :
    Instr.wf defaultConfig (.fVolt ⟨frameW.bytes.take 15⟩) = false ∧ Instr.wf defaultConfig (.fAfecnt ⟨frameA.bytes ++ [0]⟩) = false ∧
      Instr.wf defaultConfig (.fRange ⟨frameC.bytes.take 15⟩) = false ∧
      Instr.wf defaultConfig (.fSpimode ⟨frameB.bytes ++ [0]⟩) = false := by decide
theorem test_wf_fVolt : Instr.wf defaultConfig (.fVolt frameA) = false := by decide
theorem test_wf_fAfecnt : Instr.wf defaultConfig (.fAfecnt frameB) = false := by decide
theorem test_wf_fRange : Instr.wf defaultConfig (.fRange frameA) = false := by decide
theorem test_wf_fSpimode : Instr.wf defaultConfig (.fSpimode frameW) = false := by decide

/-! The checks of a configuration (log entry 22). -/

theorem test_wf_config_lsb : Config.wf { defaultConfig with vLsbUv := 0 } = false := by decide
theorem test_wf_config_frameLen : Config.wf { defaultConfig with frameLen := 15 } = false := by decide
theorem test_wf_config_sync : Config.wf { defaultConfig with sync0 := 0x0F } = false := by decide

/-! ### Decoding: a word for every constructor (30_encoding.md R93, R97; operand bytes by log entries 2 and 3) -/

theorem test_decode_pec15 : decode defaultConfig [0b00000000, 0b00000000, 0b00000001] = .ok (.pec15 [0, 1]) := by decide
theorem test_decode_pec10 : decode defaultConfig [0b00000001, 0b00000001, 0b11111111] = .ok (.pec10 true [0xFF]) := by decide
theorem test_decode_chksum8 : decode defaultConfig [0b00000010, 0b01010101, 0b10101010] = .ok (.chksum8 [0x55, 0xAA]) := by decide
theorem test_decode_chkok :
    decode defaultConfig [0b00000011, 0x55, 0xAA, 0x00, 0x00, 0x80, 0x01, 0x00, 0x05, 0x01, 0, 0, 0, 0, 0, 0, 0x86] =
      .ok (.chkok frameA) := by decide
/-- 3300000 is `0x00325AA0`. -/
theorem test_decode_vconv :
    decode defaultConfig [0b00000100, 0b00000000, 0b00110010, 0b01011010, 0b10100000] = .ok (.vconv 3300000) := by decide
theorem test_decode_vconv_negative : decode defaultConfig [0x04, 0xFF, 0xFF, 0xFF, 0xFF] = .ok (.vconv (-1)) := by decide
theorem test_decode_bldVolt :
    decode defaultConfig [0b00000101, 0x00, 0x04, 0x07, 0xC2, 0x01, 0x01, 0x00, 0x32, 0x5A, 0xA0, 0x00, 0x12, 0x34,
      0x00, 0x02, 0x01, 0x01] =
      .ok (.bldVolt ⟨0x00, 0x04, 0x07, 0xC2⟩ 1 (.volt 3300000) (.lit 0x1234) (.lit 0x0201) true) := by decide
theorem test_decode_bldAfecnt : decode defaultConfig [0b00000110, 0b00000101, 0b00000001] = .ok (.bldAfecnt 5 true) := by decide
theorem test_decode_bldRange :
    decode defaultConfig [0b00000111, 0x02, 0x03, 0x1D, 0x00, 0xAB, 0xCD, 0x01, 0x02] =
      .ok (.bldRange 2 3 29 (.lit 0xABCD) 0x0102) := by decide
theorem test_decode_bldSpimode : decode defaultConfig [0b00001000, 0b00000010] = .ok (.bldSpimode 2) := by decide
theorem test_decode_rxReset : decode defaultConfig [0b00001001, 0b00000001, 0b00000000] = .ok (.rxReset 256) := by decide
theorem test_decode_rxReset_default : decode defaultConfig [0b00001001] = .ok (.rxReset 100) := by decide
theorem test_decode_rxPush : decode defaultConfig [0b00001010, 0b00000001, 0b00000010] = .ok (.rxPush [1, 2]) := by decide
theorem test_decode_rxTimeout : decode defaultConfig [0b00001011] = .ok .rxTimeout := by decide
theorem test_decode_tick : decode defaultConfig [0b00001100] = .ok .tick := by decide
theorem test_decode_pollReady : decode defaultConfig [0b00001101] = .ok .pollReady := by decide
theorem test_decode_pollRem : decode defaultConfig [0b00001110] = .ok .pollRem := by decide
theorem test_decode_fVolt : decodeTableWord 128 0x55AA000407C201E02E3412504601DA92 = some (.fVolt frameW) := by decide
theorem test_decode_fAfecnt : decodeTableWord 128 0x55AA0000800100050100000000000086 = some (.fAfecnt frameA) := by decide
theorem test_decode_fRange : decodeTableWord 128 0x55AA00008010000100042710003200FD = some (.fRange frameC) := by decide
theorem test_decode_fSpimode : decodeTableWord 128 0x55AA00008020000200000000000000A1 = some (.fSpimode frameB) := by decide

theorem test_reject_empty : decode defaultConfig [] = .error .emptyRequest := by decide
theorem test_reject_select_F : decode defaultConfig [0b00001111] = .error .reservedSelect := by decide
theorem test_reject_high_nibble : decode defaultConfig [0b00010000] = .error .badSelectByte := by decide
theorem test_reject_truncated : decode defaultConfig [0x06, 5] = .error .truncated := by decide
theorem test_reject_trailing : decode defaultConfig [0x0C, 0] = .error .trailingBytes := by decide
theorem test_reject_boolean : decode defaultConfig [0x06, 5, 2] = .error .badBoolean := by decide
theorem test_reject_slot_tag : decode defaultConfig [0x07, 0, 0, 0, 2, 0, 0, 0, 0] = .error .badSlotTag := by decide
/-- A UV_WIDTH that fills no whole number of bytes: 2048 needs 13 bits. -/
theorem test_reject_uv : decode { defaultConfig with uvWidth := 12 } [0x04, 0x08, 0x00] = .error .uvOutOfRange := by decide
theorem test_reject_chkok_length : decode defaultConfig (0x03 :: List.replicate 15 0) = .error .frameLength := by decide
theorem test_reject_frame_length : decode defaultConfig [0x55, 0xAA, 0] = .error .frameLength := by decide
theorem test_reject_unclassified :
    decode defaultConfig [0x55, 0xAB, 0, 0, 0, 0, 0, 0, 0, 0, 0, 0, 0, 0, 0, 0] = .error .unclassifiedFrame := by decide

/-- From reset, the first step runs the presented word (log entry 19). -/
theorem test_first_step_runs_word :
    respOf (step (State.reset.withFetchWord 128 0x55AA0000800100050100000000000086)) =
      some (.none, [.frameReady frameA]) := by decide

/-! ### Unit PEC (95_test_vectors.md sections 2.1 and 2.2; S2) -/

theorem test_pec15_empty : respOf (exec (.pec15 []) State.reset) = some (.word16 0x0020, []) := by decide
theorem test_pec15_known_vector : respOf (exec (.pec15 [0, 0]) State.reset) = some (.word16 0xB65C, []) := by decide +kernel
theorem test_pec15_published : pec15 defaultConfig [0x03, 0x70] = 0xAF42 := by decide +kernel
theorem test_pec15_digits : pec15 defaultConfig [0x31, 0x32, 0x33, 0x34, 0x35, 0x36, 0x37, 0x38, 0x39] = 0xA6BE := by decide +kernel
theorem test_pec10_digits :
    respOf (exec (.pec10 false [0x31, 0x32, 0x33, 0x34, 0x35, 0x36, 0x37, 0x38, 0x39]) State.reset) =
      some (.word16 0x026B, []) := by decide +kernel
theorem test_pec10_tail : respOf (exec (.pec10 true [0x01]) tailed) = some (.word16 0x01D6, []) := by decide +kernel
theorem test_pec10_no_tail_when_false : pec10 tailed.cfg false [0x01] = 0x0191 := by decide
theorem test_pec10_other_seed : pec10 { defaultConfig with pec10Seed := 0x010 } true [0x55, 0xAA] = 0x0368 := by decide +kernel
theorem test_pec10_other_seed_tail :
    pec10 { defaultConfig with pec10Seed := 0x010, wcTail := .six } true [] = 0x008F := by decide
/-- A generator other than R6's: a byte through a zero seed and `x^15 + 1` comes out as itself. -/
theorem test_pec15_other_generator : pec15 { defaultConfig with pec15Poly := 1, pec15Seed := 0 } [0xA5] = 0x014A := by
  decide +kernel
theorem test_pec15_zero_seed : pec15 { defaultConfig with pec15Seed := 0 } [0x01] = 0x8B32 := by decide
theorem test_pec15_table_form : pec15Table defaultConfig [0x00, 0x01] = 0x3D6E := by decide +kernel
theorem test_pec10_table_form : pec10Table defaultConfig false [0x00, 0x01] = 0x0215 := by decide +kernel

/-! The tables' contents, copied from 40_pec_engine.md sections 4 and 5. -/

theorem test_t15_contents_0 : ((t15 0x4599).drop 0).take 64 =
    [0x0000, 0x4599, 0x4EAB, 0x0B32, 0x58CF, 0x1D56, 0x1664, 0x53FD, 0x7407, 0x319E, 0x3AAC, 0x7F35, 0x2CC8, 0x6951, 0x6263, 0x27FA] ++
    [0x2D97, 0x680E, 0x633C, 0x26A5, 0x7558, 0x30C1, 0x3BF3, 0x7E6A, 0x5990, 0x1C09, 0x173B, 0x52A2, 0x015F, 0x44C6, 0x4FF4, 0x0A6D] ++
    [0x5B2E, 0x1EB7, 0x1585, 0x501C, 0x03E1, 0x4678, 0x4D4A, 0x08D3, 0x2F29, 0x6AB0, 0x6182, 0x241B, 0x77E6, 0x327F, 0x394D, 0x7CD4] ++
    [0x76B9, 0x3320, 0x3812, 0x7D8B, 0x2E76, 0x6BEF, 0x60DD, 0x2544, 0x02BE, 0x4727, 0x4C15, 0x098C, 0x5A71, 0x1FE8, 0x14DA, 0x5143] := by decide +kernel

theorem test_t15_contents_1 : ((t15 0x4599).drop 64).take 64 =
    [0x73C5, 0x365C, 0x3D6E, 0x78F7, 0x2B0A, 0x6E93, 0x65A1, 0x2038, 0x07C2, 0x425B, 0x4969, 0x0CF0, 0x5F0D, 0x1A94, 0x11A6, 0x543F] ++
    [0x5E52, 0x1BCB, 0x10F9, 0x5560, 0x069D, 0x4304, 0x4836, 0x0DAF, 0x2A55, 0x6FCC, 0x64FE, 0x2167, 0x729A, 0x3703, 0x3C31, 0x79A8] ++
    [0x28EB, 0x6D72, 0x6640, 0x23D9, 0x7024, 0x35BD, 0x3E8F, 0x7B16, 0x5CEC, 0x1975, 0x1247, 0x57DE, 0x0423, 0x41BA, 0x4A88, 0x0F11] ++
    [0x057C, 0x40E5, 0x4BD7, 0x0E4E, 0x5DB3, 0x182A, 0x1318, 0x5681, 0x717B, 0x34E2, 0x3FD0, 0x7A49, 0x29B4, 0x6C2D, 0x671F, 0x2286] := by decide +kernel

theorem test_t15_contents_2 : ((t15 0x4599).drop 128).take 64 =
    [0x2213, 0x678A, 0x6CB8, 0x2921, 0x7ADC, 0x3F45, 0x3477, 0x71EE, 0x5614, 0x138D, 0x18BF, 0x5D26, 0x0EDB, 0x4B42, 0x4070, 0x05E9] ++
    [0x0F84, 0x4A1D, 0x412F, 0x04B6, 0x574B, 0x12D2, 0x19E0, 0x5C79, 0x7B83, 0x3E1A, 0x3528, 0x70B1, 0x234C, 0x66D5, 0x6DE7, 0x287E] ++
    [0x793D, 0x3CA4, 0x3796, 0x720F, 0x21F2, 0x646B, 0x6F59, 0x2AC0, 0x0D3A, 0x48A3, 0x4391, 0x0608, 0x55F5, 0x106C, 0x1B5E, 0x5EC7] ++
    [0x54AA, 0x1133, 0x1A01, 0x5F98, 0x0C65, 0x49FC, 0x42CE, 0x0757, 0x20AD, 0x6534, 0x6E06, 0x2B9F, 0x7862, 0x3DFB, 0x36C9, 0x7350] := by decide +kernel

theorem test_t15_contents_3 : ((t15 0x4599).drop 192).take 64 =
    [0x51D6, 0x144F, 0x1F7D, 0x5AE4, 0x0919, 0x4C80, 0x47B2, 0x022B, 0x25D1, 0x6048, 0x6B7A, 0x2EE3, 0x7D1E, 0x3887, 0x33B5, 0x762C] ++
    [0x7C41, 0x39D8, 0x32EA, 0x7773, 0x248E, 0x6117, 0x6A25, 0x2FBC, 0x0846, 0x4DDF, 0x46ED, 0x0374, 0x5089, 0x1510, 0x1E22, 0x5BBB] ++
    [0x0AF8, 0x4F61, 0x4453, 0x01CA, 0x5237, 0x17AE, 0x1C9C, 0x5905, 0x7EFF, 0x3B66, 0x3054, 0x75CD, 0x2630, 0x63A9, 0x689B, 0x2D02] ++
    [0x276F, 0x62F6, 0x69C4, 0x2C5D, 0x7FA0, 0x3A39, 0x310B, 0x7492, 0x5368, 0x16F1, 0x1DC3, 0x585A, 0x0BA7, 0x4E3E, 0x450C, 0x0095] := by decide +kernel

theorem test_t10_contents_0 : ((t10 0x08F).drop 0).take 64 =
    [0x000, 0x08F, 0x11E, 0x191, 0x23C, 0x2B3, 0x322, 0x3AD, 0x0F7, 0x078, 0x1E9, 0x166, 0x2CB, 0x244, 0x3D5, 0x35A] ++
    [0x1EE, 0x161, 0x0F0, 0x07F, 0x3D2, 0x35D, 0x2CC, 0x243, 0x119, 0x196, 0x007, 0x088, 0x325, 0x3AA, 0x23B, 0x2B4] ++
    [0x3DC, 0x353, 0x2C2, 0x24D, 0x1E0, 0x16F, 0x0FE, 0x071, 0x32B, 0x3A4, 0x235, 0x2BA, 0x117, 0x198, 0x009, 0x086] ++
    [0x232, 0x2BD, 0x32C, 0x3A3, 0x00E, 0x081, 0x110, 0x19F, 0x2C5, 0x24A, 0x3DB, 0x354, 0x0F9, 0x076, 0x1E7, 0x168] := by decide +kernel

theorem test_t10_contents_1 : ((t10 0x08F).drop 64).take 64 =
    [0x337, 0x3B8, 0x229, 0x2A6, 0x10B, 0x184, 0x015, 0x09A, 0x3C0, 0x34F, 0x2DE, 0x251, 0x1FC, 0x173, 0x0E2, 0x06D] ++
    [0x2D9, 0x256, 0x3C7, 0x348, 0x0E5, 0x06A, 0x1FB, 0x174, 0x22E, 0x2A1, 0x330, 0x3BF, 0x012, 0x09D, 0x10C, 0x183] ++
    [0x0EB, 0x064, 0x1F5, 0x17A, 0x2D7, 0x258, 0x3C9, 0x346, 0x01C, 0x093, 0x102, 0x18D, 0x220, 0x2AF, 0x33E, 0x3B1] ++
    [0x105, 0x18A, 0x01B, 0x094, 0x339, 0x3B6, 0x227, 0x2A8, 0x1F2, 0x17D, 0x0EC, 0x063, 0x3CE, 0x341, 0x2D0, 0x25F] := by decide +kernel

theorem test_t10_contents_2 : ((t10 0x08F).drop 128).take 64 =
    [0x2E1, 0x26E, 0x3FF, 0x370, 0x0DD, 0x052, 0x1C3, 0x14C, 0x216, 0x299, 0x308, 0x387, 0x02A, 0x0A5, 0x134, 0x1BB] ++
    [0x30F, 0x380, 0x211, 0x29E, 0x133, 0x1BC, 0x02D, 0x0A2, 0x3F8, 0x377, 0x2E6, 0x269, 0x1C4, 0x14B, 0x0DA, 0x055] ++
    [0x13D, 0x1B2, 0x023, 0x0AC, 0x301, 0x38E, 0x21F, 0x290, 0x1CA, 0x145, 0x0D4, 0x05B, 0x3F6, 0x379, 0x2E8, 0x267] ++
    [0x0D3, 0x05C, 0x1CD, 0x142, 0x2EF, 0x260, 0x3F1, 0x37E, 0x024, 0x0AB, 0x13A, 0x1B5, 0x218, 0x297, 0x306, 0x389] := by decide +kernel

theorem test_t10_contents_3 : ((t10 0x08F).drop 192).take 64 =
    [0x1D6, 0x159, 0x0C8, 0x047, 0x3EA, 0x365, 0x2F4, 0x27B, 0x121, 0x1AE, 0x03F, 0x0B0, 0x31D, 0x392, 0x203, 0x28C] ++
    [0x038, 0x0B7, 0x126, 0x1A9, 0x204, 0x28B, 0x31A, 0x395, 0x0CF, 0x040, 0x1D1, 0x15E, 0x2F3, 0x27C, 0x3ED, 0x362] ++
    [0x20A, 0x285, 0x314, 0x39B, 0x036, 0x0B9, 0x128, 0x1A7, 0x2FD, 0x272, 0x3E3, 0x36C, 0x0C1, 0x04E, 0x1DF, 0x150] ++
    [0x3E4, 0x36B, 0x2FA, 0x275, 0x1D8, 0x157, 0x0C6, 0x049, 0x313, 0x39C, 0x20D, 0x282, 0x12F, 0x1A0, 0x031, 0x0BE] := by decide +kernel

/-! ### Unit ENC (95_test_vectors.md sections 2.3 to 2.7; S3, S6) -/

theorem test_chksum8_wraps : respOf (exec (.chksum8 [0x80, 0x80]) State.reset) = some (.byte 0x00, []) := by decide
theorem test_chksum8_afecnt : chksum8 (frameA.bytes.take 15) = 0x86 := by decide
theorem test_chkok_true : respOf (exec (.chkok frameA) State.reset) = some (.bool true, []) := by decide
theorem test_chkok_misaligned_slice :
    chkok defaultConfig ⟨[0, 2, 0, 0, 0, 0, 0, 0, 0, 0xA1, 0x55, 0xAA, 0, 0, 0x80, 0x10]⟩ = false := by decide

theorem test_vconv_positive_tie : respOf (exec (.vconv 1500075) State.reset) = some (.word16 0x0001, []) := by decide
theorem test_vconv_negative_tie : respOf (exec (.vconv 1499925) State.reset) = some (.word16 0xFFFF, []) := by decide
theorem test_vconv_under_tie : vconv defaultConfig 1500074 = 0x0000 ∧ vconv defaultConfig 1499926 = 0x0000 := by decide
theorem test_vconv_wraps : vconv defaultConfig 6415125 = 0x8000 ∧ vconv defaultConfig (-3415275) = 0x7FFF := by decide
theorem test_vconv_operand_ends :
    vconv defaultConfig 2147483647 = 0x4CFE ∧ vconv defaultConfig (-2147483648) = 0x64E2 := by decide
theorem test_vconv_ties_to_even :
    vconv toEven.cfg 1500075 = 0x0000 ∧ vconv toEven.cfg 1499925 = 0x0000 ∧ vconv toEven.cfg 6415125 = 0x8000 ∧
      vconv toEven.cfg 11330175 = 0xFFFE ∧ vconv toEven.cfg (-3415275) = 0x8000 ∧ vconv toEven.cfg 1500225 = 0x0002 := by decide

theorem test_bldVolt_corrupt :
    respOf (exec (.bldVolt ⟨0x00, 0x04, 0x07, 0xC2⟩ 1 (.volt 3300000) (.lit 0x1234) (.volt 4200000) true) State.reset) =
      some (.frame frameW, []) := by decide +kernel
/-- The last row of 95 section 2.5: counts -1, 0 and +1. -/
theorem test_bldVolt_counts :
    (bldVolt defaultConfig ⟨0x00, 0x00, 0x80, 0x01⟩ 0 (.volt 1499850) (.volt 1500000) (.volt 1500150) false).bytes =
      [0x55, 0xAA, 0x00, 0x00, 0x80, 0x01, 0x00, 0xFF, 0xFF, 0x00, 0x00, 0x01, 0x00, 0x03, 0x78, 0xFA] := by decide +kernel
theorem test_bldVolt_tail :
    ((bldVolt tailed.cfg ⟨0x00, 0x04, 0x07, 0xC2⟩ 1 (.volt 3300000) (.lit 0x1234) (.volt 4200000) false).bytes.drop 13) =
      [0x01, 0xB0, 0x68] := by decide +kernel
theorem test_bldAfecnt : respOf (exec (.bldAfecnt 5 true) State.reset) = some (.frame frameA, []) := by decide
/-- A precondition violated; still defined (95 section 2.6). -/
theorem test_bldAfecnt_unchecked : (bldAfecnt defaultConfig 255 true).bytes.drop 7 = [0xFF, 0x01, 0, 0, 0, 0, 0, 0, 0x80] := by decide
theorem test_bldRange :
    respOf (exec (.bldRange 1 0 4 (.volt 3000000) 50) State.reset) = some (.frame frameC, []) := by decide
theorem test_bldRange_big_endian :
    (bldRange defaultConfig 2 3 29 (.lit 0xABCD) 0x0102).bytes.drop 10 = [0xAB, 0xCD, 0x01, 0x02, 0x00, 0x2C] := by decide
theorem test_bldSpimode : respOf (exec (.bldSpimode 2) State.reset) = some (.frame frameB, []) := by decide
/-- With a longer frame (log entry 22): four more zeros (R90), and the same checksum at the last offset (R89). -/
theorem test_bldSpimode_longer :
    (bldSpimode longer.cfg 2).bytes.drop 14 = [0, 0, 0, 0, 0, 0xA1] ∧ chkok longer.cfg (bldSpimode longer.cfg 2) = true ∧
      (fieldView longer.cfg (bldSpimode longer.cfg 2)).payload = [2, 0, 0, 0, 0, 0, 0, 0, 0, 0, 0, 0] := by decide
theorem test_bldSpimode_unchecked : (bldSpimode defaultConfig 0xFF).bytes.drop 7 = [0xFF, 0, 0, 0, 0, 0, 0, 0, 0x9E] := by decide

/-- Program P3, steps 8 and 9: the injected fault is found, and the views give the operands back. -/
theorem test_views_of_corrupt_frame :
    pecFieldOk defaultConfig frameW = false ∧ pecField frameW = 0x01DA ∧ rawValue frameW 0 = 0x2EE0 ∧
      rawValue frameW 1 = 0x1234 ∧ rawValue frameW 2 = 0x4650 ∧ (fieldView defaultConfig frameW).cmdword = [0x00, 0x04, 0x07, 0xC2] := by
  decide +kernel
theorem test_views_of_range_frame :
    (fieldView defaultConfig frameC).appCode = 0x8010 ∧ rangeStart frameC = 0x2710 ∧ rangeStep frameC = 0x0032 := by decide

/-! ### Unit DEC (95_test_vectors.md section 2.8) -/

/-- Q1, step 1: 35 bytes, two frames, three bytes left. -/
theorem test_rxPush_35_bytes :
    respOf (exec (.rxPush (frameA.bytes ++ frameB.bytes ++ [0x55, 0xAA, 0x00])) State.reset) =
        some (.none, [.frameReady frameA, .frameReady frameB]) ∧
      triple (exec (.rxPush (frameA.bytes ++ frameB.bytes ++ [0x55, 0xAA, 0x00])) State.reset) =
        some ([0x55, 0xAA, 0x00], .running 100, 2) := by decide
/-- Q4, step 5: an empty chunk restarts the window while bytes are held. -/
theorem test_rxPush_empty_restarts : triple (exec (.rxPush []) held) = some ([1, 2, 3], .running 100, 0) := by decide
/-- With frames of 20 bytes, 45 bytes are two frames and five bytes (R180's division). -/
theorem test_rxPush_longer :
    triple (exec (.rxPush (List.replicate 45 7)) longer) = some ([7, 7, 7, 7, 7], .running 100, 2) := by decide
theorem test_rxReset_drops :
    respOf (exec (.rxReset 100) held) = some (.none, []) ∧ triple (exec (.rxReset 100) held) = some ([], .stopped, 0) := by
  decide
theorem test_rxTimeout : respOf (exec .rxTimeout held) = some (.none, [.remainder [1, 2, 3]]) := by decide
theorem test_rxTimeout_idle : respOf (exec .rxTimeout State.reset) = some (.none, []) := by decide
theorem test_tick_counts : triple (exec .tick held) = some ([1, 2, 3], .running 56, 0) := by decide
/-- Q5, the deadline. -/
theorem test_tick_fires :
    respOf (exec .tick due) = some (.none, [.remainder [0xDE, 0xAD]]) ∧ triple (exec .tick due) = some ([], .stopped, 0) := by
  decide
theorem test_pollReady :
    respOf (exec .pollReady queued) = some (.frames [frameA], []) ∧ triple (exec .pollReady queued) = some ([], .stopped, 0) := by
  decide
theorem test_pollRem :
    respOf (exec .pollRem held) = some (.optBytes (some [1, 2, 3]), []) ∧
      triple (exec .pollRem held) = some ([], .stopped, 0) := by decide
theorem test_pollRem_idle : respOf (exec .pollRem State.reset) = some (.optBytes none, []) := by decide
/-- Q5, push first: frame A arrives behind two held bytes. -/
theorem test_arriving_frame_word :
    respOf (exec (.fAfecnt frameA) due) =
        some (.none, [.frameReady ⟨[0xDE, 0xAD, 0x55, 0xAA, 0, 0, 0x80, 0x01, 0, 5, 1, 0, 0, 0, 0, 0]⟩]) ∧
      triple (exec (.fAfecnt frameA) due) = some ([0x00, 0x86], .running 100, 1) := by decide
theorem test_arriving_volt : respOf (exec (.fVolt frameW) State.reset) = some (.none, [.frameReady frameW]) := by decide
theorem test_arriving_range : respOf (exec (.fRange frameC) State.reset) = some (.none, [.frameReady frameC]) := by decide
theorem test_arriving_spimode : respOf (exec (.fSpimode frameB) State.reset) = some (.none, [.frameReady frameB]) := by decide
theorem test_waitPastWindow : waitPastWindow 2 = [.tick, .tick] := by decide

/-! ### Witnesses: each statement's hypotheses, met together by a concrete case -/

theorem inv_held : held.Inv := by
  refine ⟨by decide, by simp [held, withInst, InstsSorted], ?_, by simp [held, withInst, State.reset], trivial⟩
  intro p hp
  simp only [held, withInst, List.mem_singleton] at hp
  subst hp
  exact ⟨by decide, ⟨by decide, by decide, by decide⟩, by decide, by decide, by simp [FramesOk]⟩

/-- `held` with a `TICK` presented. -/
def heldTick : State := { held with requests := [{ conn := 0, bytes := [0x0C] }] }

theorem witness_EveryStepKeepsTheInvariant : ∃ t, heldTick.Inv ∧ step heldTick = .next t := ⟨_, inv_held, rfl⟩
theorem witness_StepRunsTheDecodedRequest :
    heldTick.requests = ⟨0, [0x0C]⟩ :: [] ∧ decode heldTick.cfg [0x0C] = .ok .tick := ⟨rfl, rfl⟩
theorem witness_StepRefusesWhatSpellsNoRequest :
    ({ held with requests := [⟨0, [0x0F]⟩] } : State).requests = ⟨0, [0x0F]⟩ :: [] ∧
      decode held.cfg [0x0F] = .error .reservedSelect := ⟨rfl, rfl⟩
theorem witness_StepWithNothingPresented : held.requests = [] := rfl

theorem witness_DecodeOfEncode_vconv_ends :
    defaultConfig.wf = true ∧ Instr.wf defaultConfig (.vconv 2147483647) = true ∧ Instr.wf defaultConfig (.vconv (-2147483648)) = true := by decide
theorem witness_DecodeOfEncode_others :
    Instr.wf defaultConfig (.bldVolt ⟨1, 2, 3, 4⟩ 5 (.volt (-1)) (.lit 0xFFFF) (.volt 2147483647) true) = true ∧
      Instr.wf defaultConfig (.rxReset 1) = true ∧ Instr.wf defaultConfig (.fVolt frameW) = true ∧
      Instr.wf defaultConfig (.fAfecnt frameA) = true ∧ Instr.wf defaultConfig (.fRange frameC) = true ∧
      Instr.wf defaultConfig (.fSpimode frameB) = true := by decide
theorem witness_DecodedRequestBeginsWithItsSelectCode : decode defaultConfig [0x08, 3] = .ok (.bldSpimode 3) := by decide
/-- A passthrough literal equal to an app command word is classified as the app command frame (R91, R242). -/
theorem witness_FrameRows : defaultConfig.HasSourceLiterals ∧ frameA.bytes.length = 16 ∧ frameW.bytes.length = 16 := by decide
theorem witness_FrameRows_ambiguous :
    decode defaultConfig [0x55, 0xAA, 0, 0, 0x80, 0x01, 0, 0xFF, 0xFF, 0, 0, 1, 0, 3, 0x78, 0xFA] =
      .ok (.fAfecnt ⟨[0x55, 0xAA, 0, 0, 0x80, 0x01, 0, 0xFF, 0xFF, 0, 0, 1, 0, 3, 0x78, 0xFA]⟩) := by decide

theorem witness_DivisionIsIncrementalAndAffine :
    ([1, 2] : List Byte).length = ([3, 4] : List Byte).length ∧ ([3, 4] : List Byte).length = ([5, 6] : List Byte).length := by
  decide
theorem witness_PecOperationsArePure :
    (Instr.pec10 true [1] = .pec15 [1] ∨ Instr.pec10 true [1] = .pec10 true [1]) ∧
      (Instr.pec15 [1] = .pec15 [1] ∨ Instr.pec15 [1] = .pec10 true [1]) ∧ held.cfg = State.reset.cfg := by decide
/-- The configuration that many clauses name, and another with an odd step and another sync byte, sixteen the least. -/
theorem witness_HasSourceLiterals : defaultConfig.HasSourceLiterals ∧ toEven.cfg.HasSourceLiterals := by decide
theorem witness_Config_wf_ends : Config.wf { defaultConfig with sync0 := 0x10, vLsbUv := 1, frameLen := 16 } = true := by decide
/-- FRAME_LEN at its least and above: the premise of the clauses about a built frame's end. -/
theorem witness_frameLen : State.reset.cfg.frameLen = 16 ∧ 16 ≤ State.reset.cfg.frameLen ∧ 16 ≤ longer.cfg.frameLen := by decide
theorem witness_DecodeOfEncode_other_sync :
    Instr.wf { defaultConfig with sync0 := 0x10 } (.fVolt ⟨[0x10, 0xAA, 1, 2, 3, 4, 5, 6, 7, 8, 9, 0, 0, 0, 0, 0]⟩) =
      true := by decide
/-- The tie clauses: 75 over the offset is a tie; count 1 away from zero, count 0 to even. -/
theorem witness_VconvRoundsToNearest_ties :
    toEven.cfg.wf = true ∧ 2 * ((1500075 : Int) - 1500000 - 150 * 1).natAbs = 150 ∧ State.reset.cfg.roundMode = .tiesAway ∧
      2 * ((1500075 : Int) - 1500000 - 150 * 0).natAbs = 150 ∧ toEven.cfg.roundMode = .tiesEven := by decide
theorem witness_VconvExactRange_ends :
    defaultConfig.HasSourceLiterals ∧ defaultConfig.roundMode = .tiesAway ∧
      ((vconv defaultConfig 6415124).toInt = 32767 ∧ voltCount defaultConfig 6415124 = 32767) ∧
      ((vconv defaultConfig 6415125).toInt = -32768 ∧ voltCount defaultConfig 6415125 = 32768) ∧
      ((vconv defaultConfig (-3415274)).toInt = -32768 ∧ voltCount defaultConfig (-3415274) = -32768) ∧
      ((vconv defaultConfig (-3415275)).toInt = 32767 ∧ voltCount defaultConfig (-3415275) = -32769) := by decide
theorem witness_BuildersKeepTheChecksumInvariant :
    (Instr.bldVolt ⟨0, 0, 0, 0⟩ 0 (.lit 0) (.lit 0) (.lit 0) true).isBuilder = true ∧
      (Instr.bldAfecnt 5 true).isBuilder = true ∧ (Instr.bldRange 0 0 0 (.lit 0) 0).isBuilder = true ∧
      (Instr.bldSpimode 0).isBuilder = true ∧ 16 ≤ longer.cfg.frameLen ∧ held.cfg.frameLen = State.reset.cfg.frameLen := by decide
theorem witness_PecFieldCheckFindsTheInjectedFault (corrupt : Bool) :
    ∃ t f, exec (.bldVolt ⟨0, 4, 7, 0xC2⟩ 1 (.volt 3300000) (.lit 0x1234) (.volt 4200000) corrupt) State.reset = .next t ∧
      t.resp.result = .frame f := ⟨_, _, rfl, rfl⟩
theorem witness_FieldViews_volt :
    ∃ t f, t.resp.result = .frame f ∧ exec (.bldVolt ⟨0, 4, 7, 0xC2⟩ 1 (.lit 1) (.lit 2) (.lit 3) false) State.reset = .next t :=
  ⟨_, _, rfl, rfl⟩
theorem witness_FieldViews_afecnt : ∃ t f, t.resp.result = .frame f ∧ exec (.bldAfecnt 30 false) State.reset = .next t :=
  ⟨_, _, rfl, rfl⟩
theorem witness_FieldViews_range :
    ∃ t f, t.resp.result = .frame f ∧ exec (.bldRange 1 0 4 (.volt 3000000) 50) State.reset = .next t := ⟨_, _, rfl, rfl⟩
theorem witness_FieldViews_spimode : ∃ t f, t.resp.result = .frame f ∧ exec (.bldSpimode 3) State.reset = .next t :=
  ⟨_, _, rfl, rfl⟩
theorem witness_PecAndEncOperationsCompleteAndWriteNothing :
    (Instr.vconv (-2147483649)).isPure = true ∧ due.cfg = held.cfg := by decide

theorem room_default (r : Reassembler) (chunk : List Byte) : Room defaultConfig r chunk := room_of_unbounded rfl rfl r chunk

theorem witness_RxReset : 1 ≤ 1 ∧ exec (.rxReset 0) held = .refused .zeroWindow := ⟨by decide, rfl⟩
/-- The largest chunk and the fullest queue the bounded configuration admits: 12 held and 20 come, two frames. -/
theorem witness_RxPush_bounded :
    (∃ r, (bounded (List.replicate 12 7) []).inst? 0 = some r ∧ Room (bounded [] []).cfg r (List.replicate 20 9)) :=
  ⟨_, rfl, by simp [Room, bounded, withInst, defaultConfig]⟩
theorem witness_RxPush_unbounded : ∃ r, held.inst? held.sel = some r ∧ Room held.cfg r [9] := ⟨_, rfl, room_default _ _⟩
theorem witness_Arrivals_complete_at_the_bounds :
    ∃ r t, (Instr.rxPush (List.replicate 20 9)).arriving = some (List.replicate 20 9) ∧
      (bounded (List.replicate 12 7) []).inst? 0 = some r ∧
      exec (.rxPush (List.replicate 20 9)) (bounded (List.replicate 12 7) []) = .next t := ⟨_, _, rfl, rfl, rfl⟩
theorem witness_Arrivals_stop_over_chunk :
    ∃ r, (Instr.rxPush (List.replicate 21 9)).arriving = some (List.replicate 21 9) ∧ (bounded [] []).inst? 0 = some r ∧
      exec (.rxPush (List.replicate 21 9)) (bounded [] []) = .refused .chunkOverMax := ⟨_, rfl, rfl, rfl⟩
theorem witness_Arrivals_stop_over_queue :
    ∃ r, (Instr.fAfecnt frameA).arriving = some frameA.bytes ∧ (bounded [] [frameA, frameB]).inst? 0 = some r ∧
      exec (.fAfecnt frameA) (bounded [] [frameA, frameB]) = .fault .readyQueueOverflow := ⟨_, rfl, rfl, rfl⟩
theorem witness_RxTimeout : ∃ r, held.inst? held.sel = some r ∧ r.buf ≠ [] := ⟨_, rfl, by decide⟩
theorem witness_RxTimeout_idle : ∃ r, queued.inst? queued.sel = some r ∧ r.buf = [] := ⟨_, rfl, rfl⟩
theorem witness_Tick_stopped : ∃ r, queued.inst? queued.sel = some r ∧ r.timer = .stopped := ⟨_, rfl, rfl⟩
theorem witness_Tick_counts :
    ∃ r, (withInst ⟨[1], .running 2, [], 100⟩).inst? 0 = some r ∧ 1 < 2 ∧ r.timer = .running 2 := ⟨_, rfl, by decide, rfl⟩
theorem witness_Tick_fires : ∃ r, due.inst? due.sel = some r ∧ r.timer = .running 1 := ⟨_, rfl, rfl⟩
theorem witness_PollRem : ∃ r, held.inst? held.sel = some r ∧ r.buf = [1, 2, 3] := ⟨_, rfl, rfl⟩
theorem witness_PollReady : ∃ r, queued.inst? queued.sel = some r ∧ r.readyQ = [frameA] := ⟨_, rfl, rfl⟩
/-- With the most bytes an instance holds. -/
theorem witness_ArrivingFrameWord :
    ∃ r, frameA.bytes.length = (withInst r).cfg.frameLen ∧ (withInst r).inst? 0 = some r ∧ r.buf.length = 15 ∧
      r.buf.length < (withInst r).cfg.frameLen ∧ Room defaultConfig r frameA.bytes :=
  ⟨⟨List.replicate 15 7, .running 3, [], 100⟩, rfl, rfl, rfl, by decide, room_default _ _⟩
theorem witness_BuiltFrameComesOutOnce :
    ∃ t f r, 16 ≤ queued.cfg.frameLen ∧ (Instr.bldSpimode 2).isBuilder = true ∧ exec (.bldSpimode 2) queued = .next t ∧ t.resp.result = .frame f ∧
      queued.inst? queued.sel = some r ∧ r.buf = [] ∧ Room queued.cfg r f.bytes :=
  ⟨_, _, _, by decide, rfl, rfl, rfl, rfl, rfl, room_default _ _⟩
theorem witness_DecOperationsNeedAnInstance :
    Instr.tick.isPure = false ∧ Instr.tick.isReset = false ∧ ({ held with sel := 1 } : State).inst? 1 = none ∧
      exec .tick { held with sel := 1 } = .refused (.noInstance 1) := ⟨rfl, rfl, rfl, rfl⟩
theorem witness_ChunkingDoesNotMatter :
    ∃ t u v, exec (.rxPush (frameA.bytes ++ [1])) held = .next t ∧ held.cfg.maxChunk = none ∧
      exec (.rxPush frameA.bytes) held = .next u ∧ exec (.rxPush [1]) u = .next v := ⟨_, _, _, rfl, rfl, rfl, rfl⟩
theorem witness_NoByteIsLostOrReordered :
    ∃ t ps r, held.inst? held.sel = some r ∧ (∀ i ∈ [Instr.rxPush [4], .tick, .pollRem], i.isReset = false) ∧
      execAll [Instr.rxPush [4], .tick, .pollRem] held = some (t, ps) := ⟨_, _, _, rfl, by decide, rfl⟩
theorem witness_IdleFlush_last_tick :
    ∃ r, due.inst? due.sel = some r ∧ r.buf ≠ [] ∧ r.timer = .running 1 ∧
      (∀ i ∈ [Instr.pollReady], i = .tick ∨ i = .pollReady) ∧ [Instr.pollReady].count .tick + 1 = 1 :=
  ⟨_, rfl, by decide, rfl, by decide, by decide⟩
theorem witness_IdleFlush_several_ticks :
    ∃ r, held.inst? held.sel = some r ∧ r.buf ≠ [] ∧ r.timer = .running 57 ∧
      (∀ i ∈ List.replicate 56 Instr.tick, i = .tick ∨ i = .pollReady) ∧ (List.replicate 56 Instr.tick).count .tick + 1 = 57 :=
  ⟨_, rfl, by decide, rfl, fun i hi => .inl (List.eq_of_mem_replicate hi), by decide⟩
/-- Sixteen chunks of one byte, the fewest bytes the premise allows. -/
theorem witness_SixteenNonemptyChunksYieldAFrame :
    ∃ t ps, 0 < State.reset.cfg.frameLen ∧ (List.replicate 16 ([7] : List Byte)).length = State.reset.cfg.frameLen ∧ (∀ c ∈ List.replicate 16 ([7] : List Byte), c ≠ []) ∧
      execAll ((List.replicate 16 ([7] : List Byte)).map .rxPush) State.reset = some (t, ps) :=
  ⟨_, _, by decide, rfl, by decide, rfl⟩
theorem witness_ChunkAndDeadlineInEitherOrder :
    ∃ r, due.inst? due.sel = some r ∧ r.buf ≠ [] ∧ r.timer = .running 1 ∧ Room due.cfg r frameA.bytes :=
  ⟨_, rfl, by decide, rfl, room_default _ _⟩
theorem witness_DecoderLooksAtNoByte :
    ∃ r t, held.inst? held.sel = some r ∧ exec (.rxPush frameA.bytes) held = .next t := ⟨_, _, rfl, rfl⟩
/-- Two states of one configuration in which the selected instance differs: `due` and `held`. -/
theorem witness_InstancesShareNothing_pure :
    ∃ t, (Instr.pec10 true [1]).isPure = true ∧ exec (.pec10 true [1]) held = .next t ∧ due.cfg = held.cfg ∧
      due.inst? due.sel ≠ held.inst? held.sel := ⟨_, rfl, rfl, rfl, by decide⟩
/-- Two states that differ in another connection's instance only. -/
theorem witness_InstancesShareNothing :
    ∃ t, (held.setInst 1 (.fresh 10)).cfg = held.cfg ∧ (held.setInst 1 (.fresh 10)).sel = held.sel ∧
      (held.setInst 1 (.fresh 10)).inst? held.sel = held.inst? held.sel ∧ exec .pollRem held = .next t ∧
      (Instr.pec15 [1]).isPure = true := ⟨_, rfl, rfl, rfl, rfl, rfl⟩
theorem witness_OnlyResetChangesTheWindow :
    ∃ t r, exec .tick held = .next t ∧ Instr.tick.isReset = false ∧ held.inst? 0 = some r := ⟨_, _, rfl, rfl, rfl⟩
theorem witness_EventsComeOfTheirOperations :
    ∃ t u v, exec (.rxPush frameA.bytes) State.reset = .next t ∧ .frameReady frameA ∈ t.resp.events ∧
      exec .rxTimeout held = .next u ∧ .remainder [1, 2, 3] ∈ u.resp.events ∧
      exec .tick due = .next v ∧ .remainder [0xDE, 0xAD] ∈ v.resp.events :=
  ⟨_, _, _, rfl, by decide, rfl, by decide, rfl, by decide⟩
theorem witness_RxStateFollowsBufferAndTimer_idle :
    ∃ t r, exec .pollRem held = .next t ∧ t.inst? 0 = some r ∧ r.rxState = .idle ∧ r.timer = .stopped :=
  ⟨_, _, rfl, rfl, rfl, rfl⟩
theorem witness_RxStateFollowsBufferAndTimer : ∃ r, held.Inv ∧ held.inst? 0 = some r ∧ r.rxState = .accumulating ∧ held.cfg.frameLen = 16 :=
  ⟨_, inv_held, rfl, rfl, rfl⟩
theorem witness_RxStateFollowsBufferAndTimer_reset : ∃ t, exec (.rxReset 1) held = .next t := ⟨_, rfl⟩
theorem witness_OnlyTheNamedRequestsAreRefused : held.cfg.maxChunk = none ∧ held.cfg.readyQDepth = none := ⟨rfl, rfl⟩

end Sys2Proof.Tests
end

section
/-! Every operation of units PEC and ENC completes and writes nothing but the response. -/

open Sys2Proof Sys2Proof.Machine

/-- Settles O33: `exec_pure` gives one function of the configuration as the result in every state. -/
theorem pecAndEncOperationsCompleteAndWriteNothing :
    Obligations.PecAndEncOperationsCompleteAndWriteNothing := by
  intro i s s' hpure hcfg
  obtain ⟨f, -, hexec⟩ := exec_pure hpure
  refine ⟨f s.cfg, hexec s, ?_⟩
  rw [← hcfg]
  exact hexec s'

end

section
/-! What a push answers on a connection that was created (R232), and when each of its three outcomes comes out. -/

namespace Sys2Proof.Machine

variable {s : State} {r : Reassembler} {c : Config} {chunk : List Byte}

theorem not_chunkFits_iff : ¬ chunkFits c chunk = true ↔ ∃ n, c.maxChunk = some n ∧ n < chunk.length := by
  simp [chunkFits_iff]

/-- The queue a push would leave passes READY_Q_DEPTH, counted in the bytes held and arriving (R172). -/
theorem not_queueFits_push_iff : ¬ queueFits c (r.push c.frameLen chunk).1.readyQ = true ↔
    ∃ n, c.readyQDepth = some n ∧ n < r.readyQ.length + (r.buf.length + chunk.length) / c.frameLen := by
  simp [queueFits_iff, cutFrames_count]

/-- The chunk is checked first, then the queue (log entry 9). -/
theorem pushBytes_of_some (h : s.inst? s.sel = some r) : pushBytes chunk s =
    if chunkFits s.cfg chunk then
      if queueFits s.cfg (r.push s.cfg.frameLen chunk).1.readyQ then .next (pushed s r chunk)
      else .fault .readyQueueOverflow
    else .refused .chunkOverMax := by
  rw [pushBytes, h]; rfl

theorem pushBytes_refused_iff (h : s.inst? s.sel = some r) :
    pushBytes chunk s = .refused .chunkOverMax ↔ ¬ chunkFits s.cfg chunk = true := by
  rw [pushBytes_of_some h]
  split_ifs with hchunk hqueue
  · exact iff_of_false nofun (not_not_intro hchunk)
  · exact iff_of_false nofun (not_not_intro hchunk)
  · exact iff_of_true rfl hchunk

theorem pushBytes_fault_iff (h : s.inst? s.sel = some r) :
    pushBytes chunk s = .fault .readyQueueOverflow ↔
      chunkFits s.cfg chunk = true ∧ ¬ queueFits s.cfg (r.push s.cfg.frameLen chunk).1.readyQ = true := by
  rw [pushBytes_of_some h]
  split_ifs with hchunk hqueue
  · exact iff_of_false nofun fun hstop => hstop.2 hqueue
  · exact iff_of_true rfl ⟨hchunk, hqueue⟩
  · exact iff_of_false nofun fun hstop => hchunk hstop.1

theorem pushBytes_completes_iff (h : s.inst? s.sel = some r) :
    (∃ t, pushBytes chunk s = .next t) ↔ Room s.cfg r chunk := by
  constructor
  · rintro ⟨t, ht⟩
    obtain ⟨r', hr', hroom, -⟩ := pushBytes_next ht
    obtain rfl : r' = r := Option.some.inj (hr'.symm.trans h)
    exact hroom
  · exact fun hroom => ⟨_, pushBytes_of_room h hroom⟩

end Sys2Proof.Machine

open Sys2Proof Sys2Proof.Machine

/-- Settles O36: an arrival is a push of its bytes, whose three outcomes are told apart by the two checks. -/
theorem arrivalsStopOnlyAtConfiguredBounds : Obligations.ArrivalsStopOnlyAtConfiguredBounds := by
  intro i chunk s r harr hr
  rw [exec_arriving harr]
  refine ⟨?_, ?_, pushBytes_completes_iff hr⟩
  · rw [pushBytes_refused_iff hr, not_chunkFits_iff]
  · rw [pushBytes_fault_iff hr, chunkFits_iff, not_queueFits_push_iff]

end

section
/-! The division of unit PEC as long division of polynomials over GF(2) (R11): what one bit, one byte and a message do to
the remainder register, read as a polynomial. -/

namespace Sys2Proof.Machine

open Polynomial

/-! ### Bits and registers as polynomials -/

/-- A bit as an element of GF(2)[X]. -/
noncomputable def gf2Bit (d : Bool) : (ZMod 2)[X] := if d then 1 else 0

@[simp] theorem gf2Bit_true : gf2Bit true = 1 := rfl
@[simp] theorem gf2Bit_false : gf2Bit false = 0 := rfl

/-- `xor` is the addition of GF(2) (R11). -/
@[simp] theorem gf2Bit_xor (d e : Bool) : gf2Bit (d ^^ e) = gf2Bit d + gf2Bit e := by
  cases d <;> cases e <;> simp [CharTwo.add_self_eq_zero]

theorem gf2_eq_sum {n : Nat} (v : BitVec n) : gf2 v = ∑ k ∈ Finset.range n, gf2Bit (v.getLsbD k) * X ^ k := by
  simp [gf2, gf2Bit]

theorem gf2_xor {n : Nat} (v w : BitVec n) : gf2 (v ^^^ w) = gf2 v + gf2 w := by
  simp only [gf2_eq_sum, BitVec.getLsbD_xor, gf2Bit_xor, add_mul, Finset.sum_add_distrib]

/-- A shift multiplies by `x`, and the bit it drops is the coefficient of `x^n`. -/
theorem gf2_mul_X {n : Nat} (v : BitVec n) : gf2 v * X = gf2 (v <<< 1) + gf2Bit v.msb * X ^ n := by
  cases n with
  | zero => simp [gf2, BitVec.of_length_zero]
  | succ n =>
    have hlow : ∑ k ∈ Finset.range n, gf2Bit ((v <<< 1).getLsbD (k + 1)) * X ^ (k + 1) =
        (∑ k ∈ Finset.range n, gf2Bit (v.getLsbD k) * X ^ k) * X := by
      rw [Finset.sum_mul]
      refine Finset.sum_congr rfl fun k hk => ?_
      have hbit : (v <<< 1).getLsbD (k + 1) = v.getLsbD k := by
        rw [BitVec.getLsbD_shiftLeft, decide_eq_true (by simpa using hk)]
        simp
      rw [hbit, pow_succ, mul_assoc]
    rw [gf2_eq_sum, gf2_eq_sum, Finset.sum_range_succ, Finset.sum_range_succ', hlow, BitVec.msb_eq_getLsbD_last]
    simp [add_mul, pow_succ, mul_assoc]

/-- A message's bits as a polynomial, the first bit the most significant (R52). -/
noncomputable def gf2Bits (ds : List Bool) : (ZMod 2)[X] := ds.foldl (fun p d => p * X + gf2Bit d) 0

theorem gf2Bits_concat (ds : List Bool) (d : Bool) : gf2Bits (ds ++ [d]) = gf2Bits ds * X + gf2Bit d :=
  List.foldl_concat ..

/-- Bit 7 of a byte is its most significant coefficient (R52). -/
theorem gf2Bits_bitsOf (b : Byte) : gf2Bits (bitsOf b) = gf2 b := by
  simp only [gf2_eq_sum, Finset.sum_range_succ, Finset.sum_range_zero, gf2Bits, bitsOf, List.foldl_cons, List.foldl_nil]
  ring

theorem gf2Message_concat (data : List Byte) (b : Byte) :
    gf2Message (data ++ [b]) = gf2Message data * X ^ 8 + gf2 b :=
  List.foldl_concat ..

/-! ### The division -/

theorem divide_concat {n : Nat} (poly rem : BitVec n) (data : List Byte) (b : Byte) :
    divide poly rem (data ++ [b]) = step8 poly (divide poly rem data) b :=
  List.foldl_concat ..

/-- `a` divided by `g` leaves `r`: the quotient is some polynomial, and `r` need not be reduced. -/
def Leaves (g a r : (ZMod 2)[X]) : Prop := ∃ q, a = q * g + r

theorem Leaves.refl (g a : (ZMod 2)[X]) : Leaves g a a := ⟨0, by ring⟩

/-- Long division goes on: what `a` left, shifted and with further terms added, is divided again. -/
theorem Leaves.extend {g a r x y r' : (ZMod 2)[X]} (h : Leaves g a r) (h' : Leaves g (r * x + y) r') :
    Leaves g (a * x + y) r' := by
  obtain ⟨q, rfl⟩ := h
  obtain ⟨q', hq'⟩ := h'
  exact ⟨q * x + q', by linear_combination hq'⟩

variable {n : Nat} (poly rem : BitVec n)

/-- The generator, its term `x^n` implicit in the register (R11). -/
noncomputable def generator : (ZMod 2)[X] := X ^ n + gf2 poly

theorem gf2_step1 (d : Bool) : gf2 (step1 poly rem d) = gf2 (rem <<< 1) + gf2Bit (rem.msb ^^ d) * gf2 poly := by
  unfold step1
  cases rem.msb ^^ d <;> simp [gf2_xor]

/-- One division step (R122) brings in one bit: the generator is subtracted when the coefficient of `x^n` is one. -/
theorem step1_leaves (d : Bool) :
    Leaves (generator poly) (gf2 rem * X + gf2Bit d * X ^ n) (gf2 (step1 poly rem d)) := by
  refine ⟨gf2Bit (rem.msb ^^ d), ?_⟩
  have hcancel := CharTwo.add_self_eq_zero ((gf2Bit rem.msb + gf2Bit d) * gf2 poly)
  rw [gf2_mul_X, gf2_step1, generator, gf2Bit_xor]
  linear_combination -hcancel

theorem foldl_step1_leaves (ds : List Bool) :
    Leaves (generator poly) (gf2 rem * X ^ ds.length + gf2Bits ds * X ^ n) (gf2 (ds.foldl (step1 poly) rem)) := by
  induction ds using List.reverseRecOn with
  | nil => simpa [gf2Bits] using Leaves.refl _ (gf2 rem)
  | append_singleton ds d ih =>
    rw [List.foldl_concat]
    convert ih.extend (step1_leaves poly (ds.foldl (step1 poly) rem) d) using 1
    rw [gf2Bits_concat, List.length_append, List.length_singleton]
    ring

/-- One byte step (R122) brings in the eight bits of the byte. -/
theorem step8_leaves (b : Byte) :
    Leaves (generator poly) (gf2 rem * X ^ 8 + gf2 b * X ^ n) (gf2 (step8 poly rem b)) := by
  rw [← gf2Bits_bitsOf]
  exact foldl_step1_leaves poly rem (bitsOf b)

/-- The seed stands in front of the message. -/
theorem divide_leaves (data : List Byte) :
    Leaves (generator poly) (gf2 rem * X ^ (8 * data.length) + gf2Message data * X ^ n) (gf2 (divide poly rem data)) := by
  induction data using List.reverseRecOn with
  | nil => simpa [gf2Message] using Leaves.refl _ (gf2 rem)
  | append_singleton data b ih =>
    rw [divide_concat]
    convert ih.extend (step8_leaves poly (divide poly rem data) b) using 1
    rw [gf2Message_concat, List.length_append, List.length_singleton]
    ring

end Sys2Proof.Machine

open Sys2Proof Sys2Proof.Machine

/-- Settles O13, by induction on the message from its end: each byte continues the long division. -/
theorem divisionIsPolynomialDivision : Obligations.DivisionIsPolynomialDivision :=
  fun _ poly seed data => divide_leaves poly seed data

end

section
/-! What reset leaves, and the step that has nothing to do. -/

open Sys2Proof Sys2Proof.Machine

/-- Settles O1: State.reset is a fixed state; only the absence of every other reassembler quantifies over connections. -/
theorem resetStateValues : Obligations.ResetStateValues := by
  have hother : ∀ k, k ≠ 0 → State.reset.inst? k = none := fun k hk => if_neg hk.symm
  exact ⟨⟨_, rfl, rfl, rfl, rfl, rfl, rfl⟩, hother, by decide, by decide, rfl, rfl, rfl, rfl, rfl, rfl, rfl, rfl⟩

/-- Settles O6: no request is taken. -/
theorem stepWithNothingPresented : Obligations.StepWithNothingPresented := by
  intro s hnone
  rw [step, takeRequest_nil s hnone]

end

section
/-! What an operation depends on and what it writes (R33): the configuration and the selected reassembler. -/

namespace Sys2Proof.Machine

variable {s s' t : State} {i : Instr}

/-! ### What an operation can tell apart -/

/-- The two states have the same configuration, selection and selected reassembler; the others may differ. -/
def SameSelected (s s' : State) : Prop := s'.cfg = s.cfg ∧ s'.sel = s.sel ∧ s'.inst? s.sel = s.inst? s.sel

theorem SameSelected.inst?_sel {r : Reassembler} (h : SameSelected s s') (hr : s.inst? s.sel = some r) :
    s'.inst? s'.sel = some r := by
  obtain ⟨-, hsel, hinst⟩ := h
  rw [hsel, hinst, hr]

theorem Reassembler.tick_idleWindow (r : Reassembler) : r.tick.1.idleWindow = r.idleWindow := by
  rcases r.tick_cases with ⟨-, ht⟩ | ⟨_, -, -, ht⟩ | ⟨_, -, -, ht⟩ <;> simp [ht]

/-- An operation of units PEC and ENC answers with a result that the configuration alone determines (R10, R58). -/
theorem exec_pure_next (hpure : i.isPure = true) (h : exec i s = .next t) :
    ∃ x, t = s.respond x [] ∧ ∀ s', s'.cfg = s.cfg → exec i s' = .next (s'.respond x []) := by
  obtain ⟨f, -, hexec⟩ := exec_pure hpure
  obtain rfl : s.respond (f s.cfg) [] = t := by simpa [hexec] using h
  exact ⟨f s.cfg, rfl, fun s' hcfg => hcfg ▸ hexec s'⟩

/-- An operation of unit DEC writes the selected reassembler and answers, alike in every state it cannot tell apart;
unless it creates the reassembler anew, one is there and its window stays (R23). -/
theorem exec_dec_next (hdec : i.isPure = false) (h : exec i s = .next t) :
    ∃ r x es, t = (s.setInst s.sel r).respond x es ∧
      (∀ s', SameSelected s s' → exec i s' = .next ((s'.setInst s'.sel r).respond x es)) ∧
      (i.isReset = false → ∃ r₀, s.inst? s.sel = some r₀ ∧ r.idleWindow = r₀.idleWindow) := by
  rcases exec_next h with ⟨hpure, -⟩ | ⟨w, rfl, hw, rfl⟩ | ⟨chunk, r, harr, hr, hroom, rfl⟩ | ⟨r, rfl, hr, rfl⟩ |
    ⟨r, rfl, hr, rfl⟩ | ⟨r, rfl, hr, rfl⟩ | ⟨r, rfl, hr, rfl⟩
  · simp [hdec] at hpure
  · exact ⟨_, _, _, rfl, fun s' _ => exec_rxReset hw s', nofun⟩
  · refine ⟨_, _, _, rfl, fun s' hsame => ?_, fun _ => ⟨r, hr, r.push_idleWindow _ chunk⟩⟩
    rw [exec_arriving harr, ← hsame.1]
    exact pushBytes_of_room (hsame.inst?_sel hr) (hsame.1 ▸ hroom)
  · exact ⟨_, _, _, rfl, fun s' hsame => onInst_of_some (hsame.inst?_sel hr), fun _ => ⟨r, hr, by simp⟩⟩
  · exact ⟨_, _, _, rfl, fun s' hsame => onInst_of_some (hsame.inst?_sel hr), fun _ => ⟨r, hr, r.tick_idleWindow⟩⟩
  · exact ⟨_, _, _, rfl, fun s' hsame => onInst_of_some (hsame.inst?_sel hr), fun _ => ⟨r, hr, rfl⟩⟩
  · exact ⟨_, _, _, rfl, fun s' hsame => onInst_of_some (hsame.inst?_sel hr), fun _ => ⟨r, hr, by simp⟩⟩

/-! ### What an operation leaves alone, and what its answer depends on -/

theorem exec_onlySelectedChanged (h : exec i s = .next t) : OnlySelectedChanged s t := by
  cases hpure : i.isPure with
  | true =>
    obtain ⟨x, rfl, -⟩ := exec_pure_next hpure h
    exact ⟨rfl, rfl, rfl, fun _ _ => rfl⟩
  | false =>
    obtain ⟨r, x, es, rfl, -⟩ := exec_dec_next hpure h
    exact ⟨rfl, rfl, rfl, fun _ hk => s.inst?_setInst_other hk r⟩

/-- In states it cannot tell apart an operation answers alike and leaves the same selected reassembler (R33). -/
theorem exec_congr_selected (hsame : SameSelected s s') (h : exec i s = .next t) :
    ∃ t', exec i s' = .next t' ∧ t'.resp = t.resp ∧ t'.inst? s.sel = t.inst? s.sel := by
  obtain ⟨hcfg, hsel, hinst⟩ := hsame
  cases hpure : i.isPure with
  | true =>
    obtain ⟨x, rfl, hexec⟩ := exec_pure_next hpure h
    exact ⟨_, hexec s' hcfg, rfl, hinst⟩
  | false =>
    obtain ⟨r, x, es, rfl, hexec, -⟩ := exec_dec_next hpure h
    exact ⟨_, hexec s' ⟨hcfg, hsel, hinst⟩, rfl, by simp [hsel]⟩

/-- The window of the selected reassembler is read-only after its creation (R23). -/
theorem exec_keeps_selected_window {r : Reassembler} (hreset : i.isReset = false) (hr : s.inst? s.sel = some r)
    (h : exec i s = .next t) : ∃ r', t.inst? s.sel = some r' ∧ r'.idleWindow = r.idleWindow := by
  cases hpure : i.isPure with
  | true =>
    obtain ⟨x, rfl, -⟩ := exec_pure_next hpure h
    exact ⟨r, hr, rfl⟩
  | false =>
    obtain ⟨r', x, es, rfl, -, hwindow⟩ := exec_dec_next hpure h
    obtain ⟨r₀, hr₀, hw⟩ := hwindow hreset
    obtain rfl : r₀ = r := Option.some.inj (hr₀.symm.trans hr)
    exact ⟨r', by simp, hw⟩

end Sys2Proof.Machine

open Sys2Proof Sys2Proof.Machine

/-- Settles O50: the frame of an operation, the purity of units PEC and ENC, and the congruence of every operation in
what it can tell apart. -/
theorem instancesShareNothing : Obligations.InstancesShareNothing := by
  refine ⟨fun i s t h => exec_onlySelectedChanged h, ?_,
    fun i s s' t hcfg hsel hinst h => exec_congr_selected ⟨hcfg, hsel, hinst⟩ h⟩
  intro i s t hpure h
  obtain ⟨x, rfl, hexec⟩ := exec_pure_next hpure h
  exact ⟨fun _ => rfl, fun s' hcfg => ⟨_, hexec s' hcfg, rfl⟩⟩

/-- Settles O51: another connection's reassembler stays as it is, and the selected one keeps its window. -/
theorem onlyResetChangesTheWindow : Obligations.OnlyResetChangesTheWindow := by
  intro i s t h
  obtain ⟨hcfg, -, -, hother⟩ := exec_onlySelectedChanged h
  refine ⟨hcfg, fun hreset k r hr => ?_⟩
  by_cases hk : k = s.sel
  · subst hk
    exact exec_keeps_selected_window hreset hr h
  · exact ⟨r, (hother k hk).trans hr, rfl⟩

end

section
/-! `rx_state` (R28) read off the buffer, and off the timer under the invariant (R182). -/

namespace Sys2Proof.Machine

variable {r : Reassembler}

theorem Reassembler.rxState_idle_iff : r.rxState = .idle ↔ r.buf = [] := by
  unfold Reassembler.rxState
  split <;> simp_all

theorem Reassembler.rxState_accumulating_iff : r.rxState = .accumulating ↔ r.buf ≠ [] := by
  unfold Reassembler.rxState
  split <;> simp_all

theorem Reassembler.TimerAgrees.stopped_iff (h : r.TimerAgrees) : r.timer = .stopped ↔ r.buf = [] := by
  unfold Reassembler.TimerAgrees at h
  split at h
  · next hstop => exact iff_of_true hstop h
  · next d hrun => exact iff_of_false (by simp [hrun]) h.1

theorem Reassembler.TimerAgrees.pending (h : r.TimerAgrees) (hbuf : r.buf ≠ []) :
    ∃ d, r.timer = .running d ∧ 1 ≤ d ∧ d ≤ r.idleWindow := by
  unfold Reassembler.TimerAgrees at h
  split at h
  · exact absurd h hbuf
  · next d hrun => exact ⟨d, hrun, h.2⟩

theorem exec_rxReset_next {s t : State} {w : Nat} (h : exec (.rxReset w) s = .next t) :
    t = (s.setInst s.sel (.fresh w)).respond .none [] := by
  by_cases hw : 1 ≤ w
  · rw [exec_rxReset hw] at h
    exact (Host.Outcome.next.inj h).symm
  · obtain rfl : w = 0 := by omega
    cases h

theorem State.Inv.inst_inv {s : State} {k : Nat} (h : s.Inv) (hr : s.inst? k = some r) : r.Inv s.cfg := by
  obtain ⟨-, -, hinsts, -⟩ := h
  exact hinsts _ (lookupInst_mem hr)

end Sys2Proof.Machine

open Sys2Proof Sys2Proof.Machine

/-- Settles O53: `rx_state` is read off the buffer, and the invariant ties the timer to the buffer. -/
theorem rxStateFollowsBufferAndTimer : Obligations.RxStateFollowsBufferAndTimer := by
  constructor
  · intro s k r hinv hr
    obtain ⟨hshort, hagree, -⟩ := hinv.inst_inv hr
    rw [Reassembler.rxState_idle_iff, Reassembler.rxState_accumulating_iff, ← List.length_pos_iff]
    refine ⟨List.length_eq_zero_iff.symm, hagree.stopped_iff.symm, (and_iff_left hshort).symm, fun hlen => ?_,
      fun hbuf => hagree.pending (List.length_pos_iff.1 hbuf)⟩
    exact (and_iff_left (by omega)).symm
  · intro s t w h
    obtain rfl := exec_rxReset_next h
    exact ⟨.fresh w, by simp, Reassembler.rxState_idle_iff.2 rfl⟩

end

section
/-! A step on a request that decodes (R60), and the bits of the 16-bit containers of the PECs (R53). -/

namespace Sys2Proof.Machine

variable {s : State} {q : Request} {rest : List Request}

theorem step_of_decode_ok {i : Instr} (hreq : s.requests = q :: rest) (hdec : decode s.cfg q.bytes = .ok i) :
    step s = exec i { s with requests := rest, sel := q.conn } := by
  simp only [step, takeRequest_cons s hreq, hdec]

variable (c : Config) (wc : Bool) (data : List Byte) (k : Nat)

@[simp] theorem pec15_getLsbD_zero : (pec15 c data).getLsbD 0 = false := by
  simp [pec15]

theorem pec15_getLsbD_succ (hk : k < 15) :
    (pec15 c data).getLsbD (k + 1) = (divide c.pec15Poly c.pec15Seed data).getLsbD k := by
  have hbit : k + 1 < 16 ∧ k < 16 := by omega
  simp [pec15, hbit]

/-- For every `k`: above the remainder's ten bits both sides are 0. -/
theorem pec10_getLsbD : (pec10 c wc data).getLsbD k = (pec10Rem c wc data).getLsbD k := by
  have hlow (h : (pec10Rem c wc data).getLsbD k = true) : k < 16 := (BitVec.lt_of_getLsbD h).trans (by decide)
  simpa [pec10] using hlow

end Sys2Proof.Machine

open Sys2Proof Sys2Proof.Machine

/-- Settles O4: the oldest request is taken and its bytes decode. -/
theorem stepRunsTheDecodedRequest : Obligations.StepRunsTheDecodedRequest :=
  fun _ _ _ _ hreq hdec => step_of_decode_ok hreq hdec

/-- Settles O18: PEC15's container is shifted by one bit, PEC10's is the remainder zero-extended. -/
theorem pecContainersPlaceTheRemainder : Obligations.PecContainersPlaceTheRemainder := by
  intro c wc data
  refine ⟨pec15_getLsbD_zero c data, pec15_getLsbD_succ c data, fun k _ => pec10_getLsbD c wc data k, fun k hk => ?_⟩
  rw [pec10_getLsbD]
  exact BitVec.getLsbD_of_ge _ k hk

end

section
/-! What each operation's bytes decode to, and what bytes that decode begin with (R92, R93, R98). -/

namespace Sys2Proof

open Machine

variable {c : Config}

/-! ### Requests by their select code (R93) -/

theorem decode_select {b : Byte} (hlt : b.toNat < 16) (rest : List Byte) :
    decode c (b :: rest) = decodeOp c b.toNat rest := if_pos hlt

@[simp] theorem decode_reservedSelect (rest : List Byte) : decode c (0x0F :: rest) = .error .reservedSelect := rfl

@[simp] theorem atEnd_nil (i : Instr) : atEnd [] i = .ok i := rfl

theorem atEnd_ok {rest : List Byte} {i j : Instr} (h : atEnd rest i = .ok j) : j = i := by
  cases rest with
  | nil => exact (Except.ok.inj h).symm
  | cons => cases h

/-- The operands of `BLD_VOLT` are read back in the order they are written. -/
theorem decodeBldVolt_operands {cmd : CmdWord} {idx : Byte} {s1 s2 s3 : Slot} {corrupt : Bool}
    (h1 : slotInRange c s1 = true) (h2 : slotInRange c s2 = true) (h3 : slotInRange c s3 = true) :
    decodeBldVolt c (cmd.c0 :: cmd.c1 :: cmd.c2 :: cmd.c3 :: idx ::
      (encodeSlot c s1 ++ (encodeSlot c s2 ++ (encodeSlot c s3 ++ [boolByte corrupt])))) =
      .ok (.bldVolt cmd idx s1 s2 s3 corrupt) := by
  simp [decodeBldVolt, takeSlot_encodeSlot h1, takeSlot_encodeSlot h2, takeSlot_encodeSlot h3]

/-- The operands of `BLD_RANGE` are read back in the order they are written. -/
theorem decodeBldRange_operands {ct si ei : Byte} {sv : Slot} {st : Word16} (h : slotInRange c sv = true) :
    decodeBldRange c (ct :: si :: ei :: (encodeSlot c sv ++ [hiByte st, loByte st])) =
      .ok (.bldRange ct si ei sv st) := by
  simp [decodeBldRange, takeSlot_encodeSlot h]

theorem decodeBldVolt_ok {bs : List Byte} {i : Instr} (h : decodeBldVolt c bs = .ok i) :
    ∃ cmd idx s1 s2 s3 corrupt, i = .bldVolt cmd idx s1 s2 s3 corrupt := by
  unfold decodeBldVolt at h
  repeat' split at h
  -- every branch but the one that reads all operands is an error
  any_goals contradiction
  exact ⟨_, _, _, _, _, _, atEnd_ok h⟩

theorem decodeBldRange_ok {bs : List Byte} {i : Instr} (h : decodeBldRange c bs = .ok i) :
    ∃ ct si ei sv st, i = .bldRange ct si ei sv st := by
  unfold decodeBldRange at h
  repeat' split at h
  -- every branch but the one that reads all operands is an error
  any_goals contradiction
  exact ⟨_, _, _, _, _, atEnd_ok h⟩

/-- No select code falls through to a neighbour: what an operation's operands decode to has that operation's code. -/
theorem decodeOp_ok {op : Nat} {bs : List Byte} {i : Instr} (h : decodeOp c op bs = .ok i) :
    (selectByte c i).toNat = op := by
  unfold decodeOp at h
  -- one case for each select code, from PEC15's 0x0 on; the last is the reserved 0xF and what is no code
  split at h
  · cases h; rfl
  · split at h
    · cases h
    · split at h <;> cases h; rfl
  · cases h; rfl
  · split at h <;> cases h; rfl
  · split at h
    · cases h
    · cases atEnd_ok h; rfl
  · obtain ⟨_, _, _, _, _, _, rfl⟩ := decodeBldVolt_ok h; rfl
  · split at h
    · split at h
      · cases h
      · cases atEnd_ok h; rfl
    · cases h
  · obtain ⟨_, _, _, _, _, rfl⟩ := decodeBldRange_ok h; rfl
  · split at h
    · cases atEnd_ok h; rfl
    · cases h
  · cases h; rfl
  · cases h; rfl
  · cases atEnd_ok h; rfl
  · cases atEnd_ok h; rfl
  · cases atEnd_ok h; rfl
  · cases atEnd_ok h; rfl
  · cases h

/-! ### Frame words (R97, R98) -/

/-- The arrival of a frame of a kind: the four frame rows as one function of the kind. -/
def frameWord : FrameKind → Frame → Instr
  | .volt => .fVolt
  | .afecnt => .fAfecnt
  | .range => .fRange
  | .spimode => .fSpimode

@[simp] theorem selectByte_frameWord (k : FrameKind) (f : Frame) : selectByte c (frameWord k f) = c.sync0 := by
  cases k <;> rfl

theorem frameWord_inj {k k' : FrameKind} {f f' : Frame} : frameWord k f = frameWord k' f' ↔ k = k' ∧ f = f' := by
  cases k <;> cases k' <;> simp [frameWord]

theorem decodeFrame_ok_iff {f : Frame} {i : Instr} :
    decodeFrame c f.bytes = .ok i ↔ frameFits c f = true ∧ ∃ k, kindOf c f = some k ∧ i = frameWord k f := by
  unfold decodeFrame
  by_cases hfits : frameFits c f = true
  · rw [if_pos hfits]
    cases hkind : kindOf c f with
    | none => simp
    | some k => cases k <;> simp [hfits, frameWord, eq_comm]
  · rw [if_neg hfits]; simp [hfits]

/-- Whatever decodes begins with the select byte of what it decodes to. -/
theorem decode_ok_head {bs : List Byte} {i : Instr} (h : decode c bs = .ok i) : bs.head? = some (selectByte c i) := by
  cases bs with
  | nil => cases h
  | cons b rest =>
    simp only [decode] at h
    split at h
    · rw [List.head?_cons, BitVec.eq_of_toNat_eq (decodeOp_ok h)]
    · split at h
      · next hsync =>
        obtain ⟨-, k, -, rfl⟩ := (decodeFrame_ok_iff (f := ⟨b :: rest⟩)).1 h
        rw [selectByte_frameWord, hsync, List.head?_cons]
      · cases h

variable {f : Frame} {k : FrameKind}

/-- Bytes that begin with a sync byte which is no select code are read as a frame word. -/
theorem decode_eq_decodeFrame (hsync : 16 ≤ c.sync0.toNat) {bs : List Byte} (hhead : bs.head? = some c.sync0) :
    decode c bs = decodeFrame c bs := by
  obtain ⟨rest, rfl⟩ := List.head?_eq_some_iff.1 hhead
  simp [decode, Nat.not_lt.2 hsync]

/-- A frame word decodes to its frame row exactly when the classifier of R97 gives the row's kind. -/
theorem decode_frameWord_iff (hsync : 16 ≤ c.sync0.toNat) (hfits : frameFits c f = true) :
    decode c f.bytes = .ok (frameWord k f) ↔ kindOf c f = some k := by
  have hframe (hhead : f.bytes.head? = some c.sync0) :
      decode c f.bytes = .ok (frameWord k f) ↔ kindOf c f = some k := by
    simp [decode_eq_decodeFrame hsync hhead, decodeFrame_ok_iff, hfits, frameWord_inj]
  constructor
  · intro h
    exact (hframe (by simpa using decode_ok_head h)).1 h
  · intro h
    exact (hframe (Laws.SelectByte.head_of_kind (k := k) (by simp [hfits, h]))).2 h

theorem decode_frameWord (hsync : 16 ≤ c.sync0.toNat) (hwf : (frameFits c f && kindOf c f == some k) = true) :
    decode c f.bytes = .ok (frameWord k f) := by
  rw [Bool.and_eq_true, beq_iff_eq] at hwf
  obtain ⟨hfits, hkind⟩ := hwf
  exact (decode_frameWord_iff hsync hfits).2 hkind

/-! ### Every instruction -/

theorem Config.wf_sync0 (hc : c.wf = true) : 16 ≤ c.sync0.toNat := by
  simp only [Config.wf, Bool.and_eq_true, decide_eq_true_eq] at hc
  obtain ⟨⟨-, hsync⟩, -⟩ := hc
  exact hsync

theorem decode_encode {i : Instr} (hc : c.wf = true) (hi : i.wf c = true) : decode c (encode c i) = .ok i := by
  cases i with
  | pec15 | chksum8 | rxPush | bldSpimode | rxTimeout | tick | pollReady | pollRem => rfl
  | pec10 wc data => simp [encode, decode_select, decodeOp]
  | chkok f =>
    have hfits : frameFits c f = true := hi
    simp [encode, decode_select, decodeOp, hfits]
  | vconv uv =>
    have huv := takeUv_signedBytes (c := c) hi []
    rw [List.append_nil] at huv
    simp [encode, decode_select, decodeOp, huv]
  | bldVolt cmd idx s1 s2 s3 corrupt =>
    simp only [Instr.wf, Bool.and_eq_true] at hi
    obtain ⟨⟨h1, h2⟩, h3⟩ := hi
    exact decodeBldVolt_operands h1 h2 h3
  | bldAfecnt n ini => simp [encode, decode_select, decodeOp]
  | bldRange ct si ei sv st => exact decodeBldRange_operands hi
  | rxReset w => simp [encode, decode_select, decodeOp, decodeWindow_windowBytes]
  | fVolt f | fAfecnt f | fRange f | fSpimode f => exact decode_frameWord (Config.wf_sync0 hc) hi

end Sys2Proof

open Sys2Proof Sys2Proof.Machine

/-- Settles O8, instruction by instruction: each operand is read back from the bytes it was written as. -/
theorem decodeOfEncodeIsTheInstruction : Obligations.DecodeOfEncodeIsTheInstruction :=
  fun _ _ hc hi => decode_encode hc hi

/-- Settles O9: the select code chooses the operation, and every frame row has the sync byte. -/
theorem decodedRequestBeginsWithItsSelectCode : Obligations.DecodedRequestBeginsWithItsSelectCode :=
  fun _ _ _ h => decode_ok_head h

end

section
/-! The mask and match of a frame row (R97, R98) as a comparison of a frame's first bytes. -/

namespace Sys2Proof

open Machine

/-! ### Numbers and their first bytes -/

theorem leBytes_natOfLe (bs : List Byte) : leBytes bs.length (natOfLe bs) = bs := by
  induction bs with
  | nil => rfl
  | cons b bs ih =>
    have hb : b.toNat < 256 := b.isLt
    have hdiv : (b.toNat + 256 * natOfLe bs) / 256 = natOfLe bs := by omega
    have hmod : BitVec.ofNat 8 (b.toNat + 256 * natOfLe bs) = b := BitVec.eq_of_toNat_eq (by simp; omega)
    rw [List.length_cons, natOfLe, leBytes, hdiv, hmod, ih]

theorem beBytes_natOfBe (bs : List Byte) : beBytes bs.length (natOfBe bs) = bs := by
  have h := leBytes_natOfLe bs.reverse
  rw [List.length_reverse] at h
  rw [beBytes, natOfBe, h, List.reverse_reverse]

/-- As many bytes spell the same number only if they are the same. -/
theorem natOfBe_inj {as bs : List Byte} (hlen : as.length = bs.length) : natOfBe as = natOfBe bs ↔ as = bs := by
  refine ⟨fun h => ?_, congrArg natOfBe⟩
  rw [← beBytes_natOfBe as, hlen, h, beBytes_natOfBe]

theorem natOfBe_lt (bs : List Byte) : natOfBe bs < 256 ^ bs.length := by
  simpa [natOfBe] using natOfLe_lt bs.reverse

theorem natOfLe_append (as bs : List Byte) : natOfLe (as ++ bs) = natOfLe as + 256 ^ as.length * natOfLe bs := by
  induction as with
  | nil => simp [natOfLe]
  | cons a as ih => rw [List.cons_append, natOfLe, ih, natOfLe, List.length_cons]; ring

theorem natOfBe_append (as bs : List Byte) : natOfBe (as ++ bs) = natOfBe bs + 256 ^ bs.length * natOfBe as := by
  simp [natOfBe, natOfLe_append]

/-- The first `n` of `n + m` bytes, as a number. -/
theorem natOfBe_take {bs : List Byte} {n m : Nat} (hlen : bs.length = n + m) :
    natOfBe (bs.take n) = natOfBe bs >>> (8 * m) := by
  have hdrop : (bs.drop n).length = m := by simp [hlen]
  have hlt := natOfBe_lt (bs.drop n)
  conv_rhs => rw [← List.take_append_drop n bs, natOfBe_append]
  rw [hdrop] at hlt ⊢
  rw [Nat.shiftRight_eq_div_pow, Nat.pow_mul, show 2 ^ 8 = 256 from rfl,
    Nat.add_mul_div_left _ _ (Nat.pow_pos (by decide)), Nat.div_eq_of_lt hlt, Nat.zero_add]

/-- A number under a mask of `w` ones above `z` zeros is a match with `z` low zeros exactly when the bits above `z` are
the match's. -/
theorem and_ones_shiftLeft_eq_iff {x w z v : Nat} (hx : x >>> z < 2 ^ w) :
    x &&& ((2 ^ w - 1) <<< z) = v <<< z ↔ x >>> z = v := by
  have hmask : x &&& ((2 ^ w - 1) <<< z) = (x >>> z) <<< z := by
    rw [← Nat.mod_eq_of_lt hx, ← Nat.and_two_pow_sub_one_eq_mod, Nat.shiftLeft_and_distrib]
    apply Nat.eq_of_testBit_eq
    intro i
    by_cases hi : z ≤ i <;> simp [Nat.testBit_shiftLeft, Nat.testBit_shiftRight, hi]
  rw [hmask]
  exact ⟨fun h => by simpa using congrArg (· >>> z) h, congrArg (· <<< z)⟩

/-- Masking all but the first bytes and comparing with a match compares those bytes (R98). -/
theorem masked_eq_iff_take {bs p : List Byte} {m mask v : Nat} (hlen : bs.length = p.length + m)
    (hmask : (2 ^ (8 * p.length) - 1) <<< (8 * m) = mask) (hv : natOfBe p <<< (8 * m) = v) :
    natOfBe bs &&& mask = v ↔ bs.take p.length = p := by
  have htake : (bs.take p.length).length = p.length := by simp [hlen]
  have hlt := natOfBe_lt (bs.take p.length)
  rw [htake, natOfBe_take hlen, show 256 = 2 ^ 8 from rfl, ← Nat.pow_mul] at hlt
  rw [← hmask, ← hv, and_ones_shiftLeft_eq_iff hlt, ← natOfBe_take hlen, natOfBe_inj htake]

/-! ### The classifier as a comparison of first bytes -/

/-- Offsets 0..5 of a frame of an app command kind (R83 to R85): the sync bytes, two zeros and the code. -/
def appHead (c : Config) (code : Word16) : List Byte := [c.sync0, c.sync1, 0, 0, hiByte code, loByte code]

theorem joinBytes_eq_iff {hi lo : Byte} {v : Word16} : joinBytes hi lo = v ↔ hi = hiByte v ∧ lo = loByte v := by
  constructor
  · rintro rfl; simp
  · rintro ⟨rfl, rfl⟩; simp

theorem take_six_eq_appHead_iff {c : Config} {f : Frame} (code : Word16) (hlen : 6 ≤ f.bytes.length) :
    f.bytes.take 6 = appHead c code ↔ f.bytes.take 2 = [c.sync0, c.sync1] ∧
      (frameByte f 2 = 0 ∧ frameByte f 3 = 0) ∧ joinBytes (frameByte f 4) (frameByte f 5) = code := by
  obtain ⟨bytes⟩ := f
  match bytes, hlen with
  | b0 :: b1 :: b2 :: b3 :: b4 :: b5 :: _, _ => simp [appHead, frameByte, joinBytes_eq_iff, and_assoc]

theorem kindOf_eq {c : Config} {f : Frame} (hlen : 6 ≤ f.bytes.length) :
    kindOf c f =
      if f.bytes.take 6 = appHead c c.appAfecnt then some .afecnt
      else if f.bytes.take 6 = appHead c c.appRange then some .range
      else if f.bytes.take 6 = appHead c c.appSpimode then some .spimode
      else if f.bytes.take 2 = [c.sync0, c.sync1] then some .volt
      else none := by
  simp only [take_six_eq_appHead_iff _ hlen, kindOf]
  by_cases hsync : f.bytes.take 2 = [c.sync0, c.sync1]
  · by_cases hzero : frameByte f 2 = 0 ∧ frameByte f 3 = 0 <;>
      simp only [hsync, hzero, true_and, false_and, if_true, if_false]
  · simp [hsync]

variable {c : Config} {f : Frame}

theorem appHead_inj {a b : Word16} : appHead c a = appHead c b ↔ a = b := by
  refine ⟨fun h => ?_, congrArg _⟩
  simp only [appHead, List.cons.injEq, and_true, true_and] at h
  rw [← joinBytes_hi_lo a, joinBytes_eq_iff]
  exact h

theorem kindOf_eq_afecnt_iff (hlen : 6 ≤ f.bytes.length) :
    kindOf c f = some .afecnt ↔ f.bytes.take 6 = appHead c c.appAfecnt := by
  rw [kindOf_eq hlen]
  split_ifs <;> simp_all

theorem kindOf_eq_range_iff (hlen : 6 ≤ f.bytes.length) (hne : c.appAfecnt ≠ c.appRange) :
    kindOf c f = some .range ↔ f.bytes.take 6 = appHead c c.appRange := by
  rw [← (appHead_inj (c := c)).ne] at hne
  rw [kindOf_eq hlen]
  split_ifs <;> simp_all

theorem kindOf_eq_spimode_iff (hlen : 6 ≤ f.bytes.length) (hne : c.appAfecnt ≠ c.appSpimode)
    (hne' : c.appRange ≠ c.appSpimode) :
    kindOf c f = some .spimode ↔ f.bytes.take 6 = appHead c c.appSpimode := by
  rw [← (appHead_inj (c := c)).ne] at hne hne'
  rw [kindOf_eq hlen]
  split_ifs <;> simp_all

theorem kindOf_eq_volt_iff (hlen : 6 ≤ f.bytes.length) :
    kindOf c f = some .volt ↔ f.bytes.take 2 = [c.sync0, c.sync1] ∧ f.bytes.take 6 ≠ appHead c c.appAfecnt ∧
      f.bytes.take 6 ≠ appHead c c.appRange ∧ f.bytes.take 6 ≠ appHead c c.appSpimode := by
  rw [kindOf_eq hlen]
  split_ifs <;> simp_all

/-- The mask of the app command rows (R98) over the 16 bytes of a frame keeps the first six. -/
theorem masked_eq_iff_appHead {code : Word16} (hlen : f.bytes.length = 16) (v : Nat)
    (hv : natOfBe (appHead c code) <<< 80 = v) :
    natOfBe f.bytes &&& 0xFFFFFFFFFFFF00000000000000000000 = v ↔ f.bytes.take 6 = appHead c code :=
  masked_eq_iff_take (m := 10) hlen (by simp [appHead]) hv

/-- The mask of the F_VOLT row (R98) over the 16 bytes of a frame keeps the first two. -/
theorem masked_eq_iff_sync (hlen : f.bytes.length = 16) (v : Nat) (hv : natOfBe [c.sync0, c.sync1] <<< 112 = v) :
    natOfBe f.bytes &&& 0xFFFF0000000000000000000000000000 = v ↔ f.bytes.take 2 = [c.sync0, c.sync1] :=
  masked_eq_iff_take (m := 14) hlen (by simp) hv

end Sys2Proof

open Sys2Proof Sys2Proof.Machine

/-- Settles O10: a row's mask keeps the first six bytes, F_VOLT's the first two, and the classifier compares those. -/
theorem frameRowsSelectTheKind : Obligations.FrameRowsSelectTheKind := by
  intro c f hlit hlen
  obtain ⟨hFrameLen, hSync0, hSync1, -, -, hAfecnt, hRange, hSpimode, -⟩ := hlit
  have hsync : 16 ≤ c.sync0.toNat := by rw [hSync0]; decide
  have hfits : frameFits c f = true := by simp [frameFits, hlen, hFrameLen]
  have hdecode (k : FrameKind) := decode_frameWord_iff (k := k) hsync hfits
  have hafecnt := masked_eq_iff_appHead (c := c) (code := c.appAfecnt) hlen 0x55AA0000800100000000000000000000
    (by rw [appHead, hSync0, hSync1, hAfecnt]; rfl)
  have hrange := masked_eq_iff_appHead (c := c) (code := c.appRange) hlen 0x55AA0000801000000000000000000000
    (by rw [appHead, hSync0, hSync1, hRange]; rfl)
  have hspimode := masked_eq_iff_appHead (c := c) (code := c.appSpimode) hlen 0x55AA0000802000000000000000000000
    (by rw [appHead, hSync0, hSync1, hSpimode]; rfl)
  have hvolt := masked_eq_iff_sync (c := c) hlen 0x55AA0000000000000000000000000000 (by rw [hSync0, hSync1]; rfl)
  have h6 : 6 ≤ f.bytes.length := by omega
  refine ⟨(hdecode .afecnt).trans ?_, (hdecode .range).trans ?_, (hdecode .spimode).trans ?_,
    (hdecode .volt).trans ?_⟩
  · rw [hafecnt, kindOf_eq_afecnt_iff h6]
  · rw [hrange, kindOf_eq_range_iff h6 (by rw [hAfecnt, hRange]; decide)]
  · rw [hspimode, kindOf_eq_spimode_iff h6 (by rw [hAfecnt, hSpimode]; decide) (by rw [hRange, hSpimode]; decide)]
  · rw [hvolt, hafecnt.ne, hrange.ne, hspimode.ne, kindOf_eq_volt_iff h6]

end

section
/-! What becomes of bytes that spell no request (R93, R200), and the PEC field as the receiver checks it (R96). -/

namespace Sys2Proof.Machine

theorem step_of_decode_error {s : State} {q : Request} {rest : List Request} {e : DecodeError}
    (hreq : s.requests = q :: rest) (hdec : decode s.cfg q.bytes = .error e) : step s = .refused (.badRequest e) := by
  simp only [step, takeRequest_cons s hreq, hdec]

variable (c : Config) (cmd : CmdWord) (idx : Byte) (r1 r2 r3 : Word16) (corrupt : Bool)

theorem exec_bldVolt_next {s1 s2 s3 : Slot} {s t : State} {f : Frame}
    (h : exec (.bldVolt cmd idx s1 s2 s3 corrupt) s = .next t) (hf : t.resp.result = .frame f) :
    f = voltFrame s.cfg cmd idx (raw16 s.cfg s1) (raw16 s.cfg s2) (raw16 s.cfg s3) corrupt := by
  cases h
  exact (Result.frame.inj hf).symm

/-- The six bytes the PEC is taken of (R145). -/
theorem voltFrame_body : frameSlice (voltFrame c cmd idx r1 r2 r3 corrupt) 7 12 = voltBody r1 r2 r3 := rfl

theorem pecField_voltFrame : pecField (voltFrame c cmd idx r1 r2 r3 corrupt) =
    joinBytes (hiByte (pec10 c true (voltBody r1 r2 r3))) (pecLow (pec10 c true (voltBody r1 r2 r3)) corrupt) := rfl

theorem loByte_and_mask (v : Word16) : loByte (v &&& 0x03FF) = loByte v := by
  rw [loByte, BitVec.extractLsb'_and]
  exact BitVec.and_allOnes

/-- Inverting the low byte shows in the ten bits compared (R146, R243). -/
theorem mask_eq_mask_pecLow_iff (pec : Word16) :
    pec &&& 0x03FF = joinBytes (hiByte pec) (pecLow pec corrupt) &&& 0x03FF ↔ corrupt = false := by
  cases corrupt with
  | false => simp [pecLow]
  | true =>
    refine iff_of_false (fun h => ?_) (by decide)
    have hlow := calc
      loByte pec = loByte (pec &&& 0x03FF) := (loByte_and_mask pec).symm
      _ = loByte pec ^^^ 0xFF := by rw [h, loByte_and_mask, loByte_joinBytes]; rfl
    simpa using congrArg (BitVec.getLsbD · 0) hlow

theorem pecFieldOk_voltFrame : pecFieldOk c (voltFrame c cmd idx r1 r2 r3 corrupt) = !corrupt := by
  rw [pecFieldOk, voltFrame_body, pecField_voltFrame, Bool.eq_iff_iff, beq_iff_eq, mask_eq_mask_pecLow_iff,
    Bool.not_eq_true']

theorem chkok_finish (h : 16 ≤ c.frameLen) (b2 b3 b4 b5 b6 b7 b8 b9 b10 b11 b12 b13 b14 : Byte) :
    chkok c (finish c b2 b3 b4 b5 b6 b7 b8 b9 b10 b11 b12 b13 b14) = true := by
  rw [chkok, finish_last c _ _ _ _ _ _ _ _ _ _ _ _ _ h, beq_self_eq_true]

end Sys2Proof.Machine

open Sys2Proof Sys2Proof.Machine

/-- Settles O31: inverting the low PEC byte changes bit 0, which the mask keeps, and the checksum is taken of the bytes as
placed. -/
theorem pecFieldCheckFindsTheInjectedFault : Obligations.PecFieldCheckFindsTheInjectedFault := by
  intro cmd idx s1 s2 s3 corrupt s t f hexec hf
  obtain rfl := exec_bldVolt_next cmd idx corrupt hexec hf
  exact ⟨pecFieldOk_voltFrame .., fun hlen => chkok_finish _ hlen ..⟩

/-- Settles O5: the decoder's reason is handed on, and select code 0xF has no operation whatever follows it. -/
theorem stepRefusesWhatSpellsNoRequest : Obligations.StepRefusesWhatSpellsNoRequest :=
  ⟨fun _ _ _ _ hreq hdec => step_of_decode_error hreq hdec, fun _ => decode_reservedSelect⟩

/-- Settles O7: each word is a fixed one. -/
theorem specWordsDecode : Obligations.SpecWordsDecode :=
  ⟨by decide, by decide, by decide, by decide, by decide, by decide⟩

end

section
/-! Both operations of unit PEC complete with a word the configuration and the operands determine (R120); the remainder
registers as numbers (R122), and the message as one sequence of bits (R52). -/

namespace Sys2Proof.Machine

theorem exec_pec15 (data : List Byte) (s : State) :
    exec (.pec15 data) s = .next { s with resp := { result := .word16 (pec15 s.cfg data), events := [] } } := rfl

theorem exec_pec10 (wc : Bool) (data : List Byte) (s : State) :
    exec (.pec10 wc data) s = .next { s with resp := { result := .word16 (pec10 s.cfg wc data), events := [] } } := rfl

variable {n : Nat} (poly rem : BitVec n)

theorem toNat_step1 (d : Bool) : (step1 poly rem d).toNat =
    if (rem.toNat.testBit (n - 1) ^^ d) = true then (2 * rem.toNat % 2 ^ n) ^^^ poly.toNat else 2 * rem.toNat % 2 ^ n := by
  have hshift : (rem <<< 1).toNat = 2 * rem.toNat % 2 ^ n := by
    rw [BitVec.toNat_shiftLeft, Nat.shiftLeft_eq, pow_one, mul_comm]
  rw [step1, BitVec.msb_eq_getLsbD_last, BitVec.getLsbD, apply_ite BitVec.toNat, BitVec.toNat_xor, hshift]

theorem toNat_foldl_step1 (ds : List Bool) :
    (ds.foldl (step1 poly) rem).toNat = crcBits n poly.toNat rem.toNat ds := by
  induction ds generalizing rem with
  | nil => rfl
  | cons d ds ih => rw [List.foldl_cons, ih, toNat_step1, crcBits]

theorem messageBits_eq_flatMap (data : List Byte) : messageBits data = data.flatMap bitsOf := rfl

theorem divide_eq_foldl_step1 (data : List Byte) :
    divide poly rem data = (messageBits data).foldl (step1 poly) rem := by
  rw [messageBits_eq_flatMap, List.foldl_flatMap]
  rfl

theorem zeroBits_eq_foldl_step1 (k : Nat) :
    zeroBits poly k rem = (List.replicate k false).foldl (step1 poly) rem := by
  induction k generalizing rem with
  | zero => rfl
  | succ k ih => rw [zeroBits, ih, List.replicate_succ, List.foldl_cons]

theorem toNat_divide (data : List Byte) :
    (divide poly rem data).toNat = crcBits n poly.toNat rem.toNat (messageBits data) := by
  rw [divide_eq_foldl_step1, toNat_foldl_step1]

/-- The tail follows the message as further bits (R115). -/
theorem toNat_zeroBits_divide (k : Nat) (data : List Byte) : (zeroBits poly k (divide poly rem data)).toNat =
    crcBits n poly.toNat rem.toNat (messageBits data ++ List.replicate k false) := by
  rw [zeroBits_eq_foldl_step1, divide_eq_foldl_step1, ← List.foldl_append, toNat_foldl_step1]

/-- The two cases of the tail in one: without `wc` it has no bits. -/
theorem pec10Rem_eq_zeroBits (c : Config) (wc : Bool) (data : List Byte) : pec10Rem c wc data =
    zeroBits c.pec10Poly (if wc then wcTailBits c.wcTail else 0) (divide c.pec10Poly c.pec10Seed data) := by
  cases wc <;> rfl

theorem replicate_tail (c : Config) (wc : Bool) : List.replicate (if wc then wcTailBits c.wcTail else 0) false =
    if wc = true ∧ c.wcTail = .six then List.replicate 6 false else [] := by
  cases wc <;> cases c.wcTail <;> rfl

/-- The container holds the remainder shifted left once, and no bit of it is lost (R53). -/
theorem toNat_pec15 (c : Config) (data : List Byte) :
    (pec15 c data).toNat = 2 * (divide c.pec15Poly c.pec15Seed data).toNat := by
  have hlt := (divide c.pec15Poly c.pec15Seed data).isLt
  rw [pec15, BitVec.toNat_shiftLeft, BitVec.toNat_setWidth, Nat.shiftLeft_eq]
  omega

theorem toNat_pec10 (c : Config) (wc : Bool) (data : List Byte) :
    (pec10 c wc data).toNat = (pec10Rem c wc data).toNat :=
  BitVec.toNat_setWidth_of_le (by decide)

end Sys2Proof.Machine

open Sys2Proof Sys2Proof.Machine

/-- Settles O11: by `toNat_divide`, after the container's shift. -/
theorem pec15DividesTheMessageBits : Obligations.Pec15DividesTheMessageBits := by
  intro data s
  refine ⟨pec15 s.cfg data, exec_pec15 data s, ?_⟩
  rw [toNat_pec15, toNat_divide]

/-- Settles O12: by `toNat_zeroBits_divide`, and a remainder of ten bits is below 0x400. -/
theorem pec10DividesTheMessageBits : Obligations.Pec10DividesTheMessageBits := by
  intro wc data s
  refine ⟨pec10 s.cfg wc data, exec_pec10 wc data s, ?_, ?_⟩
  · rw [toNat_pec10, pec10Rem_eq_zeroBits, toNat_zeroBits_divide, replicate_tail]
  · rw [toNat_pec10]
    exact (pec10Rem s.cfg wc data).isLt

/-- Settles O19: the word answered is a function of the operands and of `s.cfg`. -/
theorem pecOperationsArePure : Obligations.PecOperationsArePure := by
  rintro i data wc (rfl | rfl) s
  · refine ⟨pec15 s.cfg data, exec_pec15 data s, fun s' hcfg => ?_⟩
    rw [exec_pec15, hcfg]
  · refine ⟨pec10 s.cfg wc data, exec_pec10 wc data s, fun s' hcfg => ?_⟩
    rw [exec_pec10, hcfg]

end

section
/-! The generated tables (R112, R117) and why a table step is eight division steps (R113, R118): a data bit equal to the
register's top bit only shifts the register, so a byte equal to its top eight bits shifts it by eight, and by linearity
what the byte differs in is the byte step of a zero register. -/

namespace Sys2Proof.Machine

variable {n m : Nat} (poly rem : BitVec n)

theorem step1_msb : step1 poly rem rem.msb = rem <<< 1 := by
  simp [step1]

/-- Fed its own top `k` bits, the register is shifted by `k`. -/
theorem foldl_step1_topBits (k : Nat) : ((List.range k).map rem.getMsbD).foldl (step1 poly) rem = rem <<< k := by
  induction k with
  | zero => simp
  | succ k ih =>
    rw [List.range_succ, List.map_append, List.foldl_append, ih, List.map_singleton, List.foldl_cons, List.foldl_nil,
      ← BitVec.msb_shiftLeft, step1_msb, ← BitVec.shiftLeft_add]

theorem bitsOf_eq_map_getMsbD (b : Byte) : bitsOf b = (List.range 8).map b.getMsbD := by
  simp [bitsOf, BitVec.getMsbD, List.range_succ]

/-- The index byte of R113 and R118, before the data byte comes in, is the register's top eight bits. -/
theorem bitsOf_topByte (hn : n = m + 8) : bitsOf ((rem >>> m).setWidth 8) = (List.range 8).map rem.getMsbD := by
  rw [bitsOf_eq_map_getMsbD]
  refine List.map_congr_left fun i hi => ?_
  have hi : i < 8 := List.mem_range.1 hi
  have hin : i < n := by omega
  have hbit : m + (8 - 1 - i) = n - 1 - i := by omega
  have hlow : 8 - 1 - i < 8 := by omega
  simp only [BitVec.getMsbD, BitVec.getLsbD_setWidth, BitVec.getLsbD_ushiftRight, hi, hin, hlow, hbit, decide_true,
    Bool.true_and]

theorem step8_topByte (hn : n = m + 8) : step8 poly rem ((rem >>> m).setWidth 8) = rem <<< 8 := by
  rw [step8, bitsOf_topByte rem hn, foldl_step1_topBits]

/-- The table step (R113, R118), with the byte step of a zero register for the table. -/
theorem shiftLeft_xor_step8_zero (hn : n = m + 8) (b : Byte) :
    (rem <<< 8) ^^^ step8 poly 0 ((rem >>> m).setWidth 8 ^^^ b) = step8 poly rem b := by
  rw [← step8_topByte poly rem hn, step8_xor]
  simp

/-! ### The tables -/

theorem t15_getElem? (p : BitVec 15) (i : Byte) : (t15 p)[i.toNat]? = some ((step8 p 0 i).setWidth 16) := by
  simp [t15, List.getElem?_range i.isLt]

theorem t10_getElem? (q : BitVec 10) (i : Byte) : (t10 q)[i.toNat]? = some (step8 q 0 i) := by
  simp [t10, List.getElem?_range i.isLt]

theorem t15_getD (p : BitVec 15) (i : Byte) : (t15 p).getD i.toNat 0 = (step8 p 0 i).setWidth 16 := by
  rw [List.getD_eq_getElem?_getD, t15_getElem?, Option.getD_some]

theorem t10_getD (q : BitVec 10) (i : Byte) : (t10 q).getD i.toNat 0 = step8 q 0 i := by
  rw [List.getD_eq_getElem?_getD, t10_getElem?, Option.getD_some]

/-- The byte 1 from a zero register: the generator comes in with the last bit, and nothing is shifted. -/
theorem step8_zero_one : step8 poly 0 1 = poly := by
  simp [step8, bitsOf, step1]

theorem step8_zero_xor (x y : Byte) : step8 poly 0 (x ^^^ y) = step8 poly 0 x ^^^ step8 poly 0 y := by
  simp [step8_xor]

theorem setWidth_step8_zero (w : Nat) (b : Byte) :
    (step8 poly 0 b).setWidth w = BitVec.ofNat w (crcBits n poly.toNat 0 (messageBits [b])) := by
  have hnat : (step8 poly 0 b).toNat = crcBits n poly.toNat 0 (messageBits [b]) := by
    simpa using toNat_divide poly 0 [b]
  rw [← BitVec.ofNat_toNat, hnat]

/-! ### The table-driven forms -/

theorem tableStep15_eq_step8 (p : BitVec 15) : tableStep15 p = step8 p := by
  funext rem b
  rw [tableStep15, t15_getD, BitVec.setWidth_setWidth_of_le _ (by decide), BitVec.setWidth_eq,
    shiftLeft_xor_step8_zero p rem rfl]

theorem tableStep10_eq_step8 (q : BitVec 10) : tableStep10 q = step8 q := by
  funext rem b
  rw [tableStep10, t10_getD, shiftLeft_xor_step8_zero q rem rfl]

end Sys2Proof.Machine

open Sys2Proof Sys2Proof.Machine

/-- Settles O14: byte by byte, by `tableStep15_eq_step8`. -/
theorem pec15TableFormEqualsBitSerial : Obligations.Pec15TableFormEqualsBitSerial := by
  intro c data
  rw [pec15Table, tableStep15_eq_step8]
  rfl

/-- Settles O15: byte by byte, by `tableStep10_eq_step8`; the tail is the same in both forms. -/
theorem pec10TableFormEqualsBitSerial : Obligations.Pec10TableFormEqualsBitSerial := by
  intro c wc data
  rw [pec10Table, tableStep10_eq_step8]
  rfl

/-- Settles O16: an entry is a byte step of a zero register, and that step is linear in the byte. -/
theorem tablesHoldTheGeneratedRemainders : Obligations.TablesHoldTheGeneratedRemainders := by
  intro p q
  refine ⟨by simp [t15], by simp [t10], fun i => ⟨?_, ?_⟩, fun w hw => ?_, ?_, ?_, fun i j => ⟨?_, ?_⟩⟩
  · rw [t15_getElem?, setWidth_step8_zero]
  · rw [t10_getElem?, ← setWidth_step8_zero, BitVec.setWidth_eq]
  · obtain ⟨i, -, rfl⟩ := List.mem_map.1 hw
    simp
  · exact (t15_getD p 1).trans (by rw [step8_zero_one])
  · exact (t10_getD q 1).trans (step8_zero_one q)
  · rw [t15_getD, t15_getD, t15_getD, step8_zero_xor, BitVec.setWidth_xor]
  · rw [t10_getD, t10_getD, t10_getD, step8_zero_xor]

end

section
/-! A division goes on from the remainder it left, and it and both operations of unit PEC are affine (R114, R119). -/

namespace Sys2Proof.Machine

variable {n : Nat} (poly : BitVec n)

theorem divide_append (rem : BitVec n) (d e : List Byte) :
    divide poly rem (d ++ e) = divide poly (divide poly rem d) e :=
  List.foldl_append

/-- A division is linear in the pair of seed and message. -/
theorem divide_xor (a b : BitVec n) {d e : List Byte} (h : d.length = e.length) :
    divide poly a d ^^^ divide poly b e = divide poly (a ^^^ b) (List.zipWith (· ^^^ ·) d e) := by
  induction d generalizing a b e with
  | nil => obtain rfl := List.length_eq_zero_iff.1 h.symm; rfl
  | cons x d ih =>
    obtain ⟨y, e, rfl⟩ := List.exists_cons_of_length_eq_add_one h.symm
    rw [divide_cons, divide_cons, ih _ _ (Nat.succ.inj h), step8_xor, List.zipWith_cons_cons, divide_cons]

/-- Of three seeds two cancel. -/
theorem divide_xor_xor (seed : BitVec n) {d e z : List Byte} (hde : d.length = e.length) (hez : e.length = z.length) :
    divide poly seed d ^^^ divide poly seed e ^^^ divide poly seed z =
      divide poly seed (List.zipWith (· ^^^ ·) (List.zipWith (· ^^^ ·) d e) z) := by
  rw [divide_xor poly seed seed hde, divide_xor poly _ seed (by simp [hde, hez]), BitVec.xor_self, BitVec.zero_xor]

variable (c : Config) (wc : Bool) {d e z : List Byte}

theorem pec15_xor_xor (hde : d.length = e.length) (hez : e.length = z.length) :
    pec15 c d ^^^ pec15 c e ^^^ pec15 c z = pec15 c (List.zipWith (· ^^^ ·) (List.zipWith (· ^^^ ·) d e) z) := by
  simp only [pec15, ← BitVec.shiftLeft_xor_distrib, ← BitVec.setWidth_xor, divide_xor_xor c.pec15Poly _ hde hez]

theorem pec10_xor_xor (hde : d.length = e.length) (hez : e.length = z.length) :
    pec10 c wc d ^^^ pec10 c wc e ^^^ pec10 c wc z =
      pec10 c wc (List.zipWith (· ^^^ ·) (List.zipWith (· ^^^ ·) d e) z) := by
  simp only [pec10, pec10Rem_eq_zeroBits, ← BitVec.setWidth_xor, zeroBits_xor, divide_xor_xor c.pec10Poly _ hde hez]

end Sys2Proof.Machine

open Sys2Proof Sys2Proof.Machine

/-- Settles O17: both laws of `divide`, and the containers and the tail are linear in the remainder. -/
theorem divisionIsIncrementalAndAffine : Obligations.DivisionIsIncrementalAndAffine := by
  refine ⟨fun _ => divide_append, fun _ poly seed d e h => ?_,
    fun c wc _ _ _ hde hez => ⟨pec15_xor_xor c hde hez, pec10_xor_xor c wc hde hez⟩⟩
  simpa using divide_xor poly seed seed h

end

section
/-! The checksum of unit ENC as a sum of bytes (R140), and the comparison of `CHKOK` (R141). -/

namespace Sys2Proof.Machine

theorem chksum8_eq_sum (data : List Byte) : chksum8 data = data.sum := List.sum_eq_foldl.symm

theorem chksum8_append (d e : List Byte) : chksum8 (d ++ e) = chksum8 d + chksum8 e := by
  simp only [chksum8_eq_sum, List.sum_append]

/-- Adding modulo 256 at every byte reduces the exact sum once (R140). -/
theorem chksum8_eq_ofNat_byteSum (data : List Byte) : chksum8 data = BitVec.ofNat 8 (byteSum data) := by
  rw [chksum8_eq_sum]
  induction data with
  | nil => rfl
  | cons b data ih =>
    rw [List.sum_cons, ih, byteSum, byteSum, List.map_cons, List.sum_cons, BitVec.ofNat_add, BitVec.ofNat_toNat,
      BitVec.setWidth_eq]

theorem toNat_chksum8 (data : List Byte) : (chksum8 data).toNat = byteSum data % 256 := by
  rw [chksum8_eq_ofNat_byteSum, BitVec.toNat_ofNat]

/-- A checksum may be written as any number that is the sum modulo 256. -/
theorem chksum8_eq_ofNat {data : List Byte} {sum : Nat} (h : byteSum data % 256 = sum % 256) :
    chksum8 data = BitVec.ofNat 8 sum :=
  BitVec.eq_of_toNat_eq (by rw [toNat_chksum8, h, BitVec.toNat_ofNat])

theorem chkok_eq_true_iff (c : Config) (f : Frame) : chkok c f = true ↔
    byteSum (f.bytes.take (c.frameLen - 1)) % 256 = (frameByte f (c.frameLen - 1)).toNat := by
  rw [chkok, beq_iff_eq, ← BitVec.toNat_inj, toNat_chksum8]

end Sys2Proof.Machine

open Sys2Proof Sys2Proof.Machine

/-- Settles O20, by `toNat_chksum8`. -/
theorem chksum8AddsModulo256 : Obligations.Chksum8AddsModulo256 :=
  fun data _ => ⟨chksum8 data, rfl, toNat_chksum8 data⟩

/-- Settles O21: R6's clause is the general one at FRAME_LEN 16. -/
theorem chkokComparesTheSum : Obligations.ChkokComparesTheSum := by
  intro f s
  have hiff := chkok_eq_true_iff s.cfg f
  refine ⟨chkok s.cfg f, rfl, fun hlen => ?_, hiff⟩
  rw [hlen] at hiff
  exact hiff

end

section
/-! The rounding of `VCONV` (R142): the nearest count under either tie rule, symmetric about zero, and the voltages whose
count a signed 16-bit value holds. -/

namespace Sys2Proof.Machine

variable {m : RoundMode} {d : Nat}

/-- `q` is a nearest whole number to `n / d`, and at a tie the one the tie rule chooses (R142; log entry 11). -/
structure IsNearest (m : RoundMode) (d : Nat) (n q : Int) : Prop where
  close : 2 * (n - d * q).natAbs ≤ d
  away : 2 * (n - d * q).natAbs = d → m = .tiesAway → n.natAbs < (d * q).natAbs
  even : 2 * (n - d * q).natAbs = d → m = .tiesEven → q % 2 = 0

theorem IsNearest.neg {n q : Int} (h : IsNearest m d n q) : IsNearest m d (-n) (-q) := by
  obtain ⟨hclose, haway, heven⟩ := h
  have hdist : (-n - d * -q).natAbs = (n - d * q).natAbs := by rw [← Int.natAbs_neg]; ring_nf
  refine ⟨by rwa [hdist], fun htie hm => ?_, fun htie hm => ?_⟩
  · rw [hdist] at htie
    rw [mul_neg, Int.natAbs_neg, Int.natAbs_neg]
    exact haway htie hm
  · rw [hdist] at htie
    have := heven htie hm
    omega

/-- For natural numbers the product of divisor and count stands alone, and the facts about it are linear. -/
theorem isNearest_natCast {a q p : Nat} (hp : d * q = p) (hlo : 2 * a ≤ 2 * p + d) (hhi : 2 * p ≤ 2 * a + d)
    (haway : m = .tiesAway → 2 * a < 2 * p + d)
    (heven : m = .tiesEven → 2 * a = 2 * p + d ∨ 2 * p = 2 * a + d → q % 2 = 0) : IsNearest m d a q := by
  have hprod : (d : Int) * q = p := by rw [← hp, Int.natCast_mul]
  refine ⟨?_, fun htie hm => ?_, fun htie hm => ?_⟩ <;> rw [hprod] at *
  · omega
  · have := haway hm
    omega
  · have := heven hm (by omega)
    omega

theorem roundNat_isNearest (hd : 1 ≤ d) (a : Nat) : IsNearest m d a (roundNat m a d) := by
  cases m with
  | tiesAway =>
    -- half a unit is added before the division, so a tie goes up
    have hdiv := Nat.div_add_mod (2 * a + d) (2 * d)
    have hmod := Nat.mod_lt (2 * a + d) (show 0 < 2 * d by omega)
    rw [Nat.mul_assoc] at hdiv
    exact isNearest_natCast (q := (2 * a + d) / (2 * d)) rfl (by omega) (by omega) (fun _ => by omega) nofun
  | tiesEven =>
    -- the remainder tells on which side of the half `a / d` lies
    have hdiv := Nat.div_add_mod a d
    have hmod := Nat.mod_lt a hd
    have hsucc := Nat.mul_succ d (a / d)
    simp only [roundNat]
    split_ifs with hbelow habove heven
    · exact isNearest_natCast rfl (by omega) (by omega) nofun (by omega)
    · exact isNearest_natCast hsucc (by omega) (by omega) nofun (by omega)
    · exact isNearest_natCast rfl (by omega) (by omega) nofun (by omega)
    · exact isNearest_natCast hsucc (by omega) (by omega) nofun (by omega)

theorem roundInt_isNearest (hd : 1 ≤ d) (n : Int) : IsNearest m d n (roundInt m n d) := by
  have hnat := roundNat_isNearest (m := m) hd n.natAbs
  unfold roundInt
  split
  · next h => rwa [Int.natAbs_of_nonneg h] at hnat
  · next h =>
    have hneg := hnat.neg
    rwa [Int.ofNat_natAbs_of_nonpos (by omega), neg_neg] at hneg

variable {c : Config} {uv : Int}

theorem voltCount_isNearest (hlsb : 1 ≤ c.vLsbUv) :
    IsNearest c.roundMode c.vLsbUv (uv - c.vOffsetUv) (voltCount c uv) := roundInt_isNearest hlsb _

theorem one_le_vLsbUv_of_wf (hc : c.wf = true) : 1 ≤ c.vLsbUv := by
  simp only [Config.wf, Bool.and_eq_true, decide_eq_true_eq] at hc
  obtain ⟨⟨hlsb, -⟩, -⟩ := hc
  exact hlsb

/-- Truncation to 16 bits (R142) keeps exactly the counts of the signed range. -/
theorem toInt_ofInt_16_eq_iff (q : Int) : (BitVec.ofInt 16 q).toInt = q ↔ -32768 ≤ q ∧ q ≤ 32767 := by
  rw [BitVec.toInt_ofInt]
  constructor
  · intro h
    have := Int.le_bmod (x := q) (m := 2 ^ 16) (by decide)
    have := Int.bmod_lt (x := q) (m := 2 ^ 16) (by decide)
    omega
  · rintro ⟨hlo, hhi⟩
    exact Int.bmod_eq_of_le (by omega) (by omega)

end Sys2Proof.Machine

open Sys2Proof Sys2Proof.Machine

/-- Settles O22: the count is nearest by `voltCount_isNearest`. -/
theorem vconvRoundsToNearest : Obligations.VconvRoundsToNearest := by
  intro uv s
  refine ⟨voltCount s.cfg uv, rfl, fun hwf => ?_, fun hlit => ?_⟩
  · obtain ⟨hclose, haway, heven⟩ := voltCount_isNearest (uv := uv) (one_le_vLsbUv_of_wf hwf)
    exact ⟨hclose, haway, heven⟩
  · obtain ⟨-, -, -, -, -, -, -, -, hoffset, hlsb⟩ := hlit
    have hclose := (voltCount_isNearest (c := s.cfg) (uv := uv) (by omega)).close
    rwa [hoffset, hlsb] at hclose

/-- Settles O23: the range of counts is a range of voltages, its ends given by the tie rule at half a count beyond the
greatest and the least. -/
theorem vconvExactRange : Obligations.VconvExactRange := by
  intro c uv hlit haway
  obtain ⟨-, -, -, -, -, -, -, -, hoffset, hlsb⟩ := hlit
  obtain ⟨hclose, htie, -⟩ := voltCount_isNearest (c := c) (uv := uv) (by omega)
  rw [hoffset, hlsb] at hclose htie
  rw [vconv, toInt_ofInt_16_eq_iff]
  have htie := fun h => htie h haway
  constructor <;> omega

end

section
/-! What the four builders place (R82 to R85): the halves of a 16-bit value, and the one shape every builder's frame has,
that of the shared constructor (R144). -/

namespace Sys2Proof.Machine

/-! ### Halves of a 16-bit value (R87) -/

theorem loByte_eq_setWidth (v : Word16) : loByte v = v.setWidth 8 := rfl

theorem hiByte_eq_setWidth (v : Word16) : hiByte v = (v >>> 8).setWidth 8 := rfl

/-- A PEC10 has two bits above its low byte (R53, R88). -/
theorem toNat_hiByte_pec10_le (c : Config) (wc : Bool) (data : List Byte) : (hiByte (pec10 c wc data)).toNat ≤ 3 := by
  have hlt := (pec10Rem c wc data).isLt
  rw [← toNat_pec10] at hlt
  rw [hiByte_eq_setWidth, BitVec.toNat_setWidth, BitVec.toNat_ushiftRight]
  omega

/-! ### Finished frames (R144) -/

/-- What the shared constructor returns. -/
inductive Finished (c : Config) : Frame → Prop where
  | intro (b2 b3 b4 b5 b6 b7 b8 b9 b10 b11 b12 b13 b14 : Byte) :
    Finished c (finish c b2 b3 b4 b5 b6 b7 b8 b9 b10 b11 b12 b13 b14)

/-- Every builder completes with a finished frame (R144, R151). -/
theorem exec_builder {i : Instr} (h : i.isBuilder = true) (s : State) : ∃ f : Frame, Finished s.cfg f ∧
    exec i s = .next { s with resp := { result := .frame f, events := [] } } := by
  cases i <;> simp only [Instr.isBuilder, Bool.false_eq_true] at h
  case bldVolt => exact ⟨_, .intro .., rfl⟩
  case bldAfecnt => exact ⟨_, .intro .., rfl⟩
  case bldRange => exact ⟨_, .intro .., rfl⟩
  case bldSpimode => exact ⟨_, .intro .., rfl⟩

variable {c : Config} {f : Frame}

theorem Finished.sync0 (h : Finished c f) : frameByte f 0 = c.sync0 := by cases h; rfl

theorem Finished.sync1 (h : Finished c f) : frameByte f 1 = c.sync1 := by cases h; rfl

theorem Finished.endsWithChecksum (h : Finished c f) (hlen : 16 ≤ c.frameLen) : EndsWithChecksum c f := by
  cases h
  refine ⟨finish_length (h := hlen) .., fun _ hk hlt => finish_zeros (h := hlen) (hk := hk) (hlt := hlt) .., ?_⟩
  rw [finish_last (h := hlen), toNat_chksum8]

theorem Finished.length (h : Finished c f) (hlen : 16 ≤ c.frameLen) : f.bytes.length = c.frameLen :=
  (h.endsWithChecksum hlen).1

/-- Under R6's FRAME_LEN the checksum stands at offset 15. -/
theorem Finished.of_sixteen (h : Finished c f) (hlen : c.frameLen = 16) :
    f.bytes.length = 16 ∧ (frameByte f 15).toNat = byteSum (f.bytes.take 15) % 256 := by
  obtain ⟨hlength, -, hlast⟩ := h.endsWithChecksum hlen.ge
  rw [hlen] at hlength hlast
  exact ⟨hlength, hlast⟩

/-- `CHKOK` reads nothing of the configuration but FRAME_LEN. -/
theorem Finished.chkok (h : Finished c f) (hlen : 16 ≤ c.frameLen) {c' : Config} (hc : c'.frameLen = c.frameLen) :
    chkok c' f = true := by
  cases h
  rw [Machine.chkok, hc]
  exact chkok_finish c hlen ..

/-- A frame of R6's length in full, its checksum written as any number that is the sum modulo 256. -/
theorem finish_bytes_of_sixteen (hlen : c.frameLen = 16) (b2 b3 b4 b5 b6 b7 b8 b9 b10 b11 b12 b13 b14 : Byte)
    {sum : Nat}
    (hsum : byteSum [c.sync0, c.sync1, b2, b3, b4, b5, b6, b7, b8, b9, b10, b11, b12, b13, b14] % 256 = sum % 256) :
    (finish c b2 b3 b4 b5 b6 b7 b8 b9 b10 b11 b12 b13 b14).bytes =
      [c.sync0, c.sync1, b2, b3, b4, b5, b6, b7, b8, b9, b10, b11, b12, b13, b14, BitVec.ofNat 8 sum] := by
  simp [finish, withChecksum, hlen, chksum8_eq_ofNat hsum]

end Sys2Proof.Machine

open Sys2Proof Sys2Proof.Machine

/-- Settles O24: `BLD_VOLT` reads its slots through `raw16` only. -/
theorem slotValueIsLiteralOrConverted : Obligations.SlotValueIsLiteralOrConverted :=
  ⟨fun _ _ _ => ⟨rfl, rfl⟩, fun _ _ _ _ _ _ _ => rfl⟩

/-- Settles O25: the PEC field is the PEC10 of the six bytes before it, and the end is that of every finished frame. -/
theorem bldVoltLaysOutTheFrame : Obligations.BldVoltLaysOutTheFrame := by
  intro cmd idx s1 s2 s3 corrupt s
  have hfin : Finished s.cfg (bldVolt s.cfg cmd idx s1 s2 s3 corrupt) := .intro ..
  have hsync : s.cfg.HasSourceLiterals → [s.cfg.sync0, s.cfg.sync1] = [0x55, 0xAA] := by
    rintro ⟨-, hsync0, hsync1, -⟩
    rw [hsync0, hsync1]
  exact ⟨_, pec10 s.cfg true (voltBody (raw16 s.cfg s1) (raw16 s.cfg s2) (raw16 s.cfg s3)), rfl, rfl, hsync,
    loByte_eq_setWidth _, hiByte_eq_setWidth _, loByte_eq_setWidth _, hiByte_eq_setWidth _, loByte_eq_setWidth _,
    hiByte_eq_setWidth _, ⟨_, rfl, rfl⟩, hiByte_eq_setWidth _, toNat_hiByte_pec10_le .., rfl, hfin.of_sixteen,
    hfin.endsWithChecksum⟩

/-- Settles O26: under the literals of R6 all bytes but the operands' add up to 0x80 modulo 256. -/
theorem bldAfecntLaysOutTheFrame : Obligations.BldAfecntLaysOutTheFrame := by
  intro n ini s
  have hfin : Finished s.cfg (bldAfecnt s.cfg n ini) := .intro ..
  refine ⟨_, boolByte ini, rfl, rfl, rfl, hfin.of_sixteen, hfin.endsWithChecksum, ?_⟩
  rintro ⟨hlen, hsync0, hsync1, -, -, hcode, -⟩
  rw [bldAfecnt, finish_bytes_of_sixteen hlen (sum := 0x80 + n.toNat + (boolByte ini).toNat), hsync0, hsync1, hcode]
  · rfl
  · simp [byteSum, hiByte, loByte, hsync0, hsync1, hcode]
    omega

/-- Settles O27: both values high byte first, and the end is that of every finished frame. -/
theorem bldRangeLaysOutTheFrame : Obligations.BldRangeLaysOutTheFrame := by
  intro ct si ei start step s
  have hfin : Finished s.cfg (bldRange s.cfg ct si ei start step) := .intro ..
  have hhead : s.cfg.HasSourceLiterals → appHead s.cfg s.cfg.appRange = [0x55, 0xAA, 0x00, 0x00, 0x80, 0x10] := by
    rintro ⟨-, hsync0, hsync1, -, -, -, hcode, -⟩
    rw [appHead, hsync0, hsync1, hcode]
    rfl
  exact ⟨_, rfl, rfl, hhead, hiByte_eq_setWidth _, loByte_eq_setWidth _, hiByte_eq_setWidth _, loByte_eq_setWidth _, rfl,
    hfin.of_sixteen, hfin.endsWithChecksum⟩

/-- Settles O28: under the literals of R6 all bytes but the mode add up to 0x9F modulo 256. -/
theorem bldSpimodeLaysOutTheFrame : Obligations.BldSpimodeLaysOutTheFrame := by
  intro mode s
  have hfin : Finished s.cfg (bldSpimode s.cfg mode) := .intro ..
  refine ⟨_, rfl, rfl, hfin.of_sixteen, hfin.endsWithChecksum, ?_⟩
  rintro ⟨hlen, hsync0, hsync1, -, -, -, -, hcode, -⟩
  rw [bldSpimode, finish_bytes_of_sixteen hlen (sum := 0x9F + mode.toNat), hsync0, hsync1, hcode]
  · rfl
  · simp [byteSum, hiByte, loByte, hsync0, hsync1, hcode]
    omega

/-- Settles O29: every builder's frame is a finished one. -/
theorem buildersKeepTheChecksumInvariant : Obligations.BuildersKeepTheChecksumInvariant := by
  intro i s hbuilder
  obtain ⟨f, hfin, hexec⟩ := exec_builder hbuilder s
  refine ⟨f, hexec, hfin.sync0, hfin.sync1, ?_, fun hlen => ⟨hfin.length hlen, fun t ht => ?_⟩⟩
  · rintro ⟨hlen, hsync0, hsync1, -⟩
    exact ⟨hfin.sync0.trans hsync0, hfin.sync1.trans hsync1, (hfin.length hlen.ge).trans hlen⟩
  · rw [← hfin.chkok hlen ht]
    rfl

end

section
/-! What the injected PEC fault changes of a voltage frame (R146, C2): offset 14, and by it the checksum. -/

namespace Sys2Proof.Machine

/-! ### One byte placed otherwise -/

variable {p z : List Byte}

/-- Beside its own offset a placed byte shows in the last one only. -/
theorem withChecksum_byte_congr {k : Nat} (x y : Byte) (hk : k ≠ p.length) (hlast : k ≠ (p ++ y :: z).length) :
    frameByte (withChecksum (p ++ x :: z)) k = frameByte (withChecksum (p ++ y :: z)) k := by
  have hlen (b : Byte) : (p ++ b :: z).length = p.length + (z.length + 1) := List.length_append
  rw [hlen] at hlast
  rcases Nat.lt_or_gt_of_ne hlast with hlt | hgt
  · rw [withChecksum_byte (by rwa [hlen]), withChecksum_byte (by rwa [hlen])]
    rcases Nat.lt_or_gt_of_ne hk with hbefore | hafter
    · rw [List.getD_append _ _ _ _ hbefore, List.getD_append _ _ _ _ hbefore]
    · obtain ⟨j, rfl⟩ := Nat.exists_eq_add_of_lt hafter
      rw [List.getD_append_right _ _ _ _ hafter.le, List.getD_append_right _ _ _ _ hafter.le, Nat.add_assoc,
        Nat.add_sub_cancel_left, List.getD_cons_succ, List.getD_cons_succ]
  · have hbeyond (b : Byte) : (withChecksum (p ++ b :: z)).bytes.length ≤ k := by
      rw [withChecksum_length, hlen]; exact hgt
    rw [frameByte, frameByte, List.getD_eq_default _ _ (hbeyond x), List.getD_eq_default _ _ (hbeyond y)]

/-- The checksum moves by as much as the byte. -/
theorem chksum8_add_byte (y d : Byte) : chksum8 (p ++ (y + d) :: z) = chksum8 (p ++ y :: z) + d := by
  simp only [chksum8_eq_sum, List.sum_append, List.sum_cons]
  ring

/-! ### An inverted byte -/

/-- By how much inversion moves a byte (C2). -/
def inversionShift (y : Byte) : Byte := BitVec.ofInt 8 (255 - 2 * (y.toNat : Int))

theorem xor_0xFF_eq_add (y : Byte) : y ^^^ 0xFF = y + inversionShift y := by
  have hnot : y ^^^ 0xFF = ~~~y := BitVec.xor_allOnes
  have hlt := y.isLt
  apply BitVec.eq_of_toNat_eq
  rw [hnot, BitVec.toNat_not, BitVec.toNat_add, inversionShift, BitVec.toNat_ofInt]
  omega

/-- It is odd. -/
theorem inversionShift_ne_zero (y : Byte) : inversionShift y ≠ 0 := by
  intro h
  have hnat : ((255 - 2 * (y.toNat : Int)) % (2 ^ 8 : Nat)).toNat = 0 := congrArg BitVec.toNat h
  omega

/-! ### The voltage frame around its low PEC byte -/

variable (c : Config) (cmd : CmdWord) (idx : Byte) (r1 r2 r3 : Word16)

/-- Offsets 0..13 of a voltage frame (R82), which `pec_corrupt` does not reach. -/
def voltHead : List Byte :=
  [c.sync0, c.sync1, cmd.c0, cmd.c1, cmd.c2, cmd.c3, idx, loByte r1, hiByte r1, loByte r2, hiByte r2, loByte r3,
    hiByte r3, hiByte (pec10 c true (voltBody r1 r2 r3))]

/-- The bytes a voltage frame's checksum covers, with `b` at offset 14. -/
def voltPlaced (b : Byte) : List Byte := voltHead c cmd idx r1 r2 r3 ++ b :: List.replicate (c.frameLen - 16) 0x00

theorem voltFrame_eq_withChecksum (corrupt : Bool) : voltFrame c cmd idx r1 r2 r3 corrupt =
    withChecksum (voltPlaced c cmd idx r1 r2 r3 (pecLow (pec10 c true (voltBody r1 r2 r3)) corrupt)) := rfl

variable {c}

theorem voltPlaced_length (h : 16 ≤ c.frameLen) (b : Byte) :
    (voltPlaced c cmd idx r1 r2 r3 b).length = c.frameLen - 1 :=
  length_placed c h (voltHead c cmd idx r1 r2 r3 ++ [b]) rfl

/-- Every other offset is the same whatever is done to the PEC (R146). -/
theorem voltFrame_byte_congr (h : 16 ≤ c.frameLen) (corrupt corrupt' : Bool) {k : Nat} (hk : k ≠ 14)
    (hlast : k + 1 ≠ c.frameLen) :
    frameByte (voltFrame c cmd idx r1 r2 r3 corrupt) k = frameByte (voltFrame c cmd idx r1 r2 r3 corrupt') k := by
  have hend (b : Byte) : k ≠ (voltPlaced c cmd idx r1 r2 r3 b).length := by
    rw [voltPlaced_length cmd idx r1 r2 r3 h]; omega
  exact withChecksum_byte_congr (p := voltHead c cmd idx r1 r2 r3) _ _ hk (hend _)

/-- The last offset, 15 under R6, holds the checksum. -/
theorem voltFrame_last (h : 16 ≤ c.frameLen) (corrupt : Bool) :
    frameByte (voltFrame c cmd idx r1 r2 r3 corrupt) (c.frameLen - 1) =
      chksum8 (voltPlaced c cmd idx r1 r2 r3 (pecLow (pec10 c true (voltBody r1 r2 r3)) corrupt)) := by
  rw [voltFrame_eq_withChecksum, ← voltPlaced_length cmd idx r1 r2 r3 h, withChecksum_last]

theorem voltFrame_last_corrupt (h : 16 ≤ c.frameLen) :
    frameByte (voltFrame c cmd idx r1 r2 r3 true) (c.frameLen - 1) =
      frameByte (voltFrame c cmd idx r1 r2 r3 false) (c.frameLen - 1) +
        inversionShift (frameByte (voltFrame c cmd idx r1 r2 r3 false) 14) := by
  have hpec : pecLow (pec10 c true (voltBody r1 r2 r3)) true = frameByte (voltFrame c cmd idx r1 r2 r3 false) 14 +
      inversionShift (frameByte (voltFrame c cmd idx r1 r2 r3 false) 14) := xor_0xFF_eq_add _
  rw [voltFrame_last cmd idx r1 r2 r3 h, voltFrame_last cmd idx r1 r2 r3 h, hpec]
  exact chksum8_add_byte ..

end Sys2Proof.Machine

open Sys2Proof Sys2Proof.Machine

/-- Settles O30: inversion moves the byte at offset 14, and with it the checksum, by an odd number. -/
theorem pecCorruptChangesTwoBytes : Obligations.PecCorruptChangesTwoBytes := by
  intro cmd idx s1 s2 s3 s
  refine ⟨_, _, rfl, rfl, rfl, rfl, fun hlen => ?_⟩
  have hshift := voltFrame_last_corrupt cmd idx (raw16 s.cfg s1) (raw16 s.cfg s2) (raw16 s.cfg s3) hlen
  exact ⟨fun k hk hlast => voltFrame_byte_congr _ _ _ _ _ hlen _ _ hk hlast, hshift,
    fun heq => inversionShift_ne_zero _ (add_eq_left.1 (hshift.symm.trans heq))⟩

end

section
/-! A built frame on its way through an empty reassembler (R154). -/

namespace Sys2Proof.Machine

/-- The bytes of one frame are cut into that frame, and nothing is left. -/
theorem cutFrames_one_frame {len : Nat} (h0 : 0 < len) {f : Frame} (hf : f.bytes.length = len) :
    cutFrames len f.bytes = ([f], []) := by
  simpa using cutFrames_frame h0 hf []

theorem Reassembler.push_one_frame {len : Nat} {r : Reassembler} {f : Frame} (h0 : 0 < len) (hf : f.bytes.length = len)
    (hbuf : r.buf = []) :
    r.push len f.bytes = ({ r with timer := .stopped, readyQ := r.readyQ ++ [f] }, [f]) := by
  simp [Reassembler.push, hbuf, cutFrames_one_frame h0 hf, timerFor]

end Sys2Proof.Machine

open Sys2Proof Sys2Proof.Machine

/-- Settles O42: a builder leaves the reassembler alone, and its frame has the one length there is. -/
theorem builtFrameComesOutOnce : Obligations.BuiltFrameComesOutOnce := by
  intro i s t f r hlen hbuilder hexec hresult hinst hbuf hroom
  obtain ⟨g, hfin, hg⟩ := exec_builder hbuilder s
  obtain rfl := Host.Outcome.next.inj (hg.symm.trans hexec)
  obtain rfl : g = f := Result.frame.inj hresult
  have hpush := Reassembler.push_one_frame (by omega) (hfin.length hlen) hbuf
  refine ⟨_, pushBytes_of_room hinst hroom, ?_, ?_⟩
  · rw [pushed_resp, ← Reassembler.push_frames]
    exact congrArg (fun q => q.2.map Event.frameReady) hpush
  · exact (pushed_inst?_same ..).trans (congrArg (some ·.1) hpush)

end

section
/-! Every operation keeps the invariant of the machine (R181, R182): what a flush hands out is a residual, and a write of
one reassembler and a response need their own clauses only. -/

namespace Sys2Proof.Machine

variable {s t : State} {r : Reassembler} {c : Config}

/-! ### What a reassembler hands out -/

theorem Reassembler.Inv.residualOk (h : r.Inv c) (hbuf : r.buf ≠ []) : ResidualOk c r.buf :=
  ⟨List.length_pos_iff.2 hbuf, h.1⟩

theorem Reassembler.Inv.framesOk (h : r.Inv c) : FramesOk c r.readyQ := by
  obtain ⟨-, -, -, -, hqueued⟩ := h
  exact hqueued

theorem Reassembler.timeout_events_lengthOk (h : r.Inv c) : ∀ e ∈ r.timeout.2, e.LengthOk c := by
  rw [Reassembler.timeout_snd]
  split
  · simp
  · next hbuf => simpa using h.residualOk hbuf

theorem Reassembler.tick_events_lengthOk (h : r.Inv c) : ∀ e ∈ r.tick.2, e.LengthOk c := by
  rcases r.tick_cases with ⟨-, ht⟩ | ⟨d, -, -, ht⟩ | ⟨d, -, -, ht⟩
  · simp [ht]
  · rw [ht]; exact timeout_events_lengthOk h
  · simp [ht]

theorem Reassembler.flush_result_lengthOk (h : r.Inv c) : (Result.optBytes r.flush.2).LengthOk c := by
  rw [Reassembler.flush_snd]
  split
  · trivial
  · next hbuf => exact h.residualOk hbuf

theorem frameReady_events_lengthOk (b : List Byte) :
    ∀ e ∈ (cutFrames c.frameLen b).1.map Event.frameReady, e.LengthOk c := by
  simpa [Event.LengthOk] using cutFrames_frames_length b

/-! ### The invariant of the machine -/

theorem Config.frameLen_of_wf (h : c.wf = true) : 16 ≤ c.frameLen := by
  simp only [Config.wf, Bool.and_eq_true, decide_eq_true_eq] at h
  exact h.2

theorem State.Inv.respond (h : s.Inv) {x : Result} {es : List Event} (hx : x.LengthOk s.cfg)
    (hes : ∀ e ∈ es, e.LengthOk s.cfg) : (s.respond x es).Inv := by
  obtain ⟨hcfg, hsorted, hinsts, -⟩ := h
  exact ⟨hcfg, hsorted, hinsts, hes, hx⟩

theorem State.Inv.setInst (h : s.Inv) (k : Nat) (hr : r.Inv s.cfg) : (s.setInst k r).Inv := by
  obtain ⟨hcfg, hsorted, hinsts, hresp⟩ := h
  refine ⟨hcfg, putInst_sorted hsorted, fun p hp => ?_, hresp⟩
  rcases mem_putInst hp with rfl | hold
  · exact hr
  · exact hinsts p hold

theorem exec_keeps_inv {i : Instr} (hinv : s.Inv) (h : exec i s = .next t) : t.Inv := by
  have hlen : 16 ≤ s.cfg.frameLen := Config.frameLen_of_wf hinv.1
  rcases exec_next h with ⟨-, x, hx, rfl⟩ | ⟨w, -, hw, rfl⟩ | ⟨chunk, r, -, hr, hroom, rfl⟩ | ⟨r, -, hr, rfl⟩ |
    ⟨r, -, hr, rfl⟩ | ⟨r, -, hr, rfl⟩ | ⟨r, -, hr, rfl⟩
  · exact hinv.respond (hx hlen) (by simp)
  · exact (hinv.setInst _ (Reassembler.fresh_inv (by omega) hw)).respond trivial (by simp)
  · have hqueue := (room_iff.1 hroom).2
    exact (hinv.setInst _ (Reassembler.push_inv chunk (hinv.inst_inv hr) hqueue)).respond trivial
      (frameReady_events_lengthOk _)
  · have hflushed := Reassembler.flush_inv (hinv.inst_inv hr)
    rw [← Reassembler.timeout_fst] at hflushed
    exact (hinv.setInst _ hflushed).respond trivial (Reassembler.timeout_events_lengthOk (hinv.inst_inv hr))
  · exact (hinv.setInst _ (Reassembler.tick_inv (hinv.inst_inv hr))).respond trivial
      (Reassembler.tick_events_lengthOk (hinv.inst_inv hr))
  · exact (hinv.setInst _ (Reassembler.poll_inv (hinv.inst_inv hr))).respond (hinv.inst_inv hr).framesOk (by simp)
  · have hflushed := Reassembler.flush_inv (hinv.inst_inv hr)
    rw [← Reassembler.flush_fst] at hflushed
    exact (hinv.setInst _ hflushed).respond (Reassembler.flush_result_lengthOk (hinv.inst_inv hr)) (by simp)

end Sys2Proof.Machine

open Sys2Proof Sys2Proof.Machine

/-- Settles O3: taking a request touches no clause of the invariant, and every operation keeps it. -/
theorem everyStepKeepsTheInvariant : Obligations.EveryStepKeepsTheInvariant := by
  intro s t hinv h
  rcases step_cases h with ⟨-, rfl⟩ | ⟨q, rest, i, -, -, hexec⟩
  · exact hinv
  · exact exec_keeps_inv (s := { s with requests := rest, sel := q.conn }) hinv hexec

end

section
/-! The operations of unit DEC on a reassembler that exists, one equation each (R171, R174, R176, R177, R179), and the
operations that emit events (R170). -/

namespace Sys2Proof.Machine

variable {s t : State} {r : Reassembler}

/-! ### What each operation answers -/

theorem exec_rxTimeout_of_some (h : s.inst? s.sel = some r) : exec .rxTimeout s =
    .next ((s.setInst s.sel { r with buf := [], timer := .stopped }).respond .none
      (if r.buf = [] then [] else [.remainder r.buf])) := by
  rw [← Reassembler.timeout_fst, ← Reassembler.timeout_snd]
  exact onInst_of_some h

theorem exec_tick_of_some (h : s.inst? s.sel = some r) :
    exec .tick s = .next ((s.setInst s.sel r.tick.1).respond .none r.tick.2) := onInst_of_some h

theorem exec_pollReady_of_some (h : s.inst? s.sel = some r) : exec .pollReady s =
    .next ((s.setInst s.sel { r with readyQ := [] }).respond (.frames r.readyQ) []) := onInst_of_some h

theorem exec_pollRem_of_some (h : s.inst? s.sel = some r) : exec .pollRem s =
    .next ((s.setInst s.sel { r with buf := [], timer := .stopped }).respond
      (.optBytes (if r.buf = [] then none else some r.buf)) []) := by
  rw [← Reassembler.flush_fst, ← Reassembler.flush_snd]
  exact onInst_of_some h

/-! ### One flush and one tick (R176, R174) -/

theorem Reassembler.timeout_snd_cases (r : Reassembler) : r.timeout.2 = [] ∨ r.timeout.2 = [.remainder r.buf] := by
  rw [Reassembler.timeout_snd]
  exact ite_eq_or_eq ..

theorem Reassembler.tick_snd_cases (r : Reassembler) : r.tick.2 = [] ∨ r.tick.2 = [.remainder r.buf] := by
  rcases r.tick_cases with ⟨-, ht⟩ | ⟨_, -, -, ht⟩ | ⟨_, -, -, ht⟩
  · exact .inl (by rw [ht])
  · rw [ht]; exact r.timeout_snd_cases
  · exact .inl (by rw [ht])

theorem Reassembler.tick_of_stopped (h : r.timer = .stopped) : r.tick = (r, []) := by
  rw [Reassembler.tick, h]

theorem Reassembler.tick_of_more {d : Nat} (hd : 1 < d) (h : r.timer = .running d) :
    r.tick = ({ r with timer := .running (d - 1) }, []) := by
  obtain ⟨k, rfl⟩ := Nat.exists_eq_add_of_le' hd
  rw [Reassembler.tick, h]
  rfl

theorem Reassembler.tick_of_last (h : r.timer = .running 1) : r.tick =
    ({ r with buf := [], timer := .stopped }, if r.buf = [] then [] else [.remainder r.buf]) := by
  rw [← Reassembler.timeout_fst, ← Reassembler.timeout_snd, Reassembler.tick, h]

end Sys2Proof.Machine

open Sys2Proof Sys2Proof.Machine

/-- Settles O34: a window of at least 1 passes the one check there is. -/
theorem rxResetCreatesTheInstance : Obligations.RxResetCreatesTheInstance :=
  ⟨fun s _ hw => ⟨_, exec_rxReset hw s, State.inst?_setInst_same .., rfl, exec_onlySelectedChanged (exec_rxReset hw s)⟩,
    fun _ => rfl⟩

/-- Settles O37: the flush looks at the buffer only. -/
theorem rxTimeoutFlushes : Obligations.RxTimeoutFlushes := fun _ _ hr =>
  ⟨_, exec_rxTimeout_of_some hr, rfl, State.inst?_setInst_same .., exec_onlySelectedChanged (exec_rxTimeout_of_some hr)⟩

/-- Settles O38, by the three cases of the timer. -/
theorem tickCountsDownAndFires : Obligations.TickCountsDownAndFires := by
  intro s r hr
  refine ⟨_, exec_tick_of_some hr, rfl, fun hstopped => ?_, fun d hd hrunning => ?_, fun hlast => ?_,
    exec_onlySelectedChanged (exec_tick_of_some hr)⟩
  · simp [Reassembler.tick_of_stopped hstopped]
  · simp [Reassembler.tick_of_more hd hrunning]
  · simp [Reassembler.tick_of_last hlast]

/-- Settles O39: the flush of `RX_TIMEOUT` with the bytes as the result. -/
theorem pollRemReturnsTheResidual : Obligations.PollRemReturnsTheResidual := fun _ _ hr =>
  ⟨_, exec_pollRem_of_some hr, rfl, State.inst?_setInst_same .., exec_onlySelectedChanged (exec_pollRem_of_some hr)⟩

/-- Settles O40: the queue leaves as it stands. -/
theorem pollReadyDrainsTheQueue : Obligations.PollReadyDrainsTheQueue := fun _ _ hr =>
  ⟨_, exec_pollReady_of_some hr, rfl, State.inst?_setInst_same .., exec_onlySelectedChanged (exec_pollReady_of_some hr)⟩

/-- Settles O52: a push emits frames only, a flush its one remainder, and every other operation nothing. -/
theorem eventsComeOfTheirOperations : Obligations.EventsComeOfTheirOperations := by
  intro i s t h
  rcases exec_next h with ⟨-, x, -, rfl⟩ | ⟨w, -, -, rfl⟩ | ⟨chunk, r, harr, -, -, rfl⟩ | ⟨r, rfl, -, rfl⟩ |
    ⟨r, rfl, -, rfl⟩ | ⟨r, -, -, rfl⟩ | ⟨r, -, -, rfl⟩
  · simp
  · simp
  · simp [harr]
  · rcases r.timeout_snd_cases with hes | hes <;> simp [hes]
  · rcases r.tick_snd_cases with hes | hes <;> simp [hes]
  · simp
  · simp

end

section
/-! The bytes of a push under the extraction loop (R172): its stream, its frames and its residual. -/

open Sys2Proof Sys2Proof.Machine

/-- Settles O35, by the laws of the extraction loop over the bytes held and the bytes that came. -/
theorem rxPushCutsTheStream : Obligations.RxPushCutsTheStream := by
  intro chunk s r hr hroom
  have hexec : exec (.rxPush chunk) s = .next (pushed s r chunk) := pushBytes_of_room hr hroom
  refine ⟨_, _, _, hexec, cutFrames_concat _, cutFrames_frames_length _, ?_, ?_, pushed_resp r chunk, ?_,
    exec_onlySelectedChanged hexec⟩
  · rw [cutFrames_count, List.length_append]
  · rw [cutFrames_residual_length, List.length_append]
  · rw [pushed_inst?_same, Reassembler.push, timerFor_eq]

end

section
/-! Two chunks in one push or in two (R184): the same reassembler and the same frames. -/

namespace Sys2Proof.Machine

variable {s t : State} {r : Reassembler} {chunk c1 c2 : List Byte}

theorem exec_rxPush_iff : exec (.rxPush chunk) s = .next t ↔
    ∃ r, s.inst? s.sel = some r ∧ Room s.cfg r chunk ∧ t = pushed s r chunk := by
  constructor
  · exact pushBytes_next
  · rintro ⟨r, hr, hroom, rfl⟩
    exact pushBytes_of_room hr hroom

theorem Reassembler.push_append (len : Nat) (r : Reassembler) (c1 c2 : List Byte) :
    r.push len (c1 ++ c2) =
      (((r.push len c1).1.push len c2).1, (r.push len c1).2 ++ ((r.push len c1).1.push len c2).2) := by
  simp [Reassembler.push, ← List.append_assoc, cutFrames_append (r.buf ++ c1) c2]

theorem pushed_append_inst? (s : State) (r : Reassembler) (c1 c2 : List Byte) (k : Nat) :
    (pushed (pushed s r c1) (r.push s.cfg.frameLen c1).1 c2).inst? k = (pushed s r (c1 ++ c2)).inst? k := by
  by_cases hk : k = s.sel
  · subst hk
    rw [pushed_inst?_same, Reassembler.push_append]
    exact pushed_inst?_same (s := pushed s r c1) ..
  · rw [pushed_inst?_other _ _ hk, pushed_inst?_other _ _ (by exact hk), pushed_inst?_other _ _ hk]

theorem pushed_append_events (s : State) (r : Reassembler) (c1 c2 : List Byte) :
    (pushed s r (c1 ++ c2)).resp.events = (pushed s r c1).resp.events ++
      (pushed (pushed s r c1) (r.push s.cfg.frameLen c1).1 c2).resp.events := by
  simp [← List.append_assoc, cutFrames_append (r.buf ++ c1) c2]

theorem queueFits_push_of_append {c : Config}
    (h : queueFits c (r.push c.frameLen (c1 ++ c2)).1.readyQ = true) :
    queueFits c (r.push c.frameLen c1).1.readyQ = true := by
  rw [queueFits_iff] at h ⊢
  intro n hn
  have hlong := h n hn
  rw [Reassembler.push_append, Reassembler.push_readyQ, List.length_append] at hlong
  omega

/-- Room for both chunks in one is room for each in turn. -/
theorem Room.of_append {c : Config} (h : Room c r (c1 ++ c2)) :
    Room c r c1 ∧ Room c (r.push c.frameLen c1).1 c2 := by
  simp only [room_iff, chunkFits_iff, List.length_append] at h ⊢
  obtain ⟨hchunk, hqueue⟩ := h
  refine ⟨⟨fun n hn => ?_, queueFits_push_of_append hqueue⟩, fun n hn => ?_, ?_⟩
  · exact (Nat.le_add_right ..).trans (hchunk n hn)
  · exact (Nat.le_add_left ..).trans (hchunk n hn)
  · rwa [Reassembler.push_append] at hqueue

/-- The second push leaves the queue that one push of both would leave. -/
theorem Room.append {c : Config} (hmax : c.maxChunk = none) (h : Room c (r.push c.frameLen c1).1 c2) :
    Room c r (c1 ++ c2) := by
  rw [room_iff] at h ⊢
  rw [Reassembler.push_append]
  exact ⟨by simp [chunkFits, hmax], h.2⟩

end Sys2Proof.Machine

open Sys2Proof Sys2Proof.Machine

/-- Settles O44: the loop goes on with what the first chunk left, and the room for both chunks is the room for each. -/
theorem chunkingDoesNotMatter : Obligations.ChunkingDoesNotMatter := by
  constructor
  · intro c1 c2 s t h
    obtain ⟨r, hr, hroom, rfl⟩ := exec_rxPush_iff.1 h
    obtain ⟨hroom1, hroom2⟩ := hroom.of_append
    exact ⟨_, _, exec_rxPush_iff.2 ⟨r, hr, hroom1, rfl⟩,
      exec_rxPush_iff.2 ⟨_, pushed_inst?_same r c1, hroom2, rfl⟩,
      pushed_append_inst? s r c1 c2, pushed_append_events s r c1 c2⟩
  · intro c1 c2 s u v hmax h1 h2
    obtain ⟨r, hr, -, rfl⟩ := exec_rxPush_iff.1 h1
    obtain ⟨r', hr', hroom2, rfl⟩ := exec_rxPush_iff.1 h2
    obtain rfl : r' = (r.push s.cfg.frameLen c1).1 := Option.some.inj (hr'.symm.trans (pushed_inst?_same r c1))
    exact ⟨_, exec_rxPush_iff.2 ⟨r, hr, Room.append hmax hroom2, rfl⟩,
      pushed_append_inst? s r c1 c2, pushed_append_events s r c1 c2⟩

end

section
/-! The decoder looks at no byte (R187): the extraction loop commutes with any change of the bytes. -/

namespace Sys2Proof.Machine

variable {r : Reassembler}

/-- The frame with every byte changed by `g`. -/
def mapFrame (g : Byte → Byte) (f : Frame) : Frame := ⟨f.bytes.map g⟩

@[simp] theorem mapFrame_bytes (g : Byte → Byte) (f : Frame) : (mapFrame g f).bytes = f.bytes.map g := rfl

/-- The reassembler with every held byte changed by `g`. -/
def Reassembler.mapBuf (g : Byte → Byte) (r : Reassembler) : Reassembler := { r with buf := r.buf.map g }

theorem cutFrames_map {len : Nat} (g : Byte → Byte) (b : List Byte) :
    cutFrames len (b.map g) = ((cutFrames len b).1.map (mapFrame g), (cutFrames len b).2.map g) := by
  induction b using frames_induction len with
  | short b h => rw [cutFrames_short h, cutFrames_short (by simpa using h)]; rfl
  | frame f b h0 hf ih =>
    have hmapped : (mapFrame g f).bytes.length = len := by simpa using hf
    rw [List.map_append, ← mapFrame_bytes, cutFrames_frame h0 hmapped, cutFrames_frame h0 hf, ih]
    rfl

theorem timerFor_map (g : Byte → Byte) (b : List Byte) (w : Nat) : timerFor (b.map g) w = timerFor b w := by
  cases b <;> rfl

theorem Room.map (g : Byte → Byte) {c : Config} {chunk : List Byte} (h : Room c r chunk) :
    Room c (r.mapBuf g) (chunk.map g) := by
  simpa [Room, Reassembler.mapBuf] using h

end Sys2Proof.Machine

open Sys2Proof Sys2Proof.Machine

/-- Settles O49: the checks count bytes and frames, and the loop commutes with the change. -/
theorem decoderLooksAtNoByte : Obligations.DecoderLooksAtNoByte := by
  intro g chunk s t r hr h
  obtain ⟨r', hr', hroom, rfl⟩ := exec_rxPush_iff.1 h
  obtain rfl : r' = r := Option.some.inj (hr'.symm.trans hr)
  have hcut := cutFrames_map (len := s.cfg.frameLen) g (r'.buf ++ chunk)
  rw [List.map_append] at hcut
  refine ⟨_, exec_rxPush_iff.2 ⟨r'.mapBuf g, State.inst?_setInst_same .., hroom.map g, rfl⟩, ?_, rfl, rfl, rfl, rfl, ?_,
    _, _, (cutFrames s.cfg.frameLen (r'.buf ++ chunk)).1,
    (cutFrames s.cfg.frameLen (r'.buf ++ chunk)).1.map (mapFrame g), pushed_inst?_same .., pushed_inst?_same .., ?_⟩
  · simp [Reassembler.mapBuf, hcut, Function.comp_def, Event.payload]
  · intro k hk
    rw [pushed_inst?_other _ _ hk, pushed_inst?_other _ _ (by exact hk), State.inst?_setInst_other _ hk]
  · simp [Reassembler.mapBuf, hcut, timerFor_map]

end

section
/-! What is held, what came and what was handed out: over one operation, and over a run on one reassembler (R183). -/

namespace Sys2Proof.Machine

variable {s t u : State} {r : Reassembler} {i : Instr}

/-! ### Runs -/

theorem execAll_cons_iff {is : List Instr} {ps : List Response} : execAll (i :: is) s = some (u, ps) ↔
    ∃ t qs, exec i s = .next t ∧ execAll is t = some (u, qs) ∧ ps = t.resp :: qs := by
  rw [execAll]
  cases exec i s with
  | next t =>
    cases hrest : execAll is t with
    | none => simp [hrest]
    | some res => obtain ⟨v, qs⟩ := res; simp [hrest, and_comm, eq_comm]
  | fault => simp
  | refused => simp

/-! ### The bytes a response hands out -/

theorem exec_pure_delivered (hpure : i.isPure = true) (h : exec i s = .next t) : t.resp.delivered = [] := by
  cases i <;> simp only [Instr.isPure, Bool.false_eq_true] at hpure <;> cases h <;> rfl

theorem arriving_of_pure (hpure : i.isPure = true) : i.arriving = none := by
  cases i <;> simp_all [Instr.isPure, Instr.arriving]

theorem pushed_delivered (s : State) (r : Reassembler) (chunk : List Byte) :
    (pushed s r chunk).resp.delivered = (cutFrames s.cfg.frameLen (r.buf ++ chunk)).1.flatMap Frame.bytes := by
  simp [Response.delivered, List.flatMap_map, Event.payload]

theorem Reassembler.timeout_payload (r : Reassembler) : r.timeout.2.flatMap Event.payload = r.buf := by
  rw [Reassembler.timeout_snd]
  split
  · next hbuf => exact hbuf.symm
  · simp [Event.payload]

/-- A tick hands out what it takes from the buffer (R174). -/
theorem Reassembler.tick_conserves (r : Reassembler) : r.tick.2.flatMap Event.payload ++ r.tick.1.buf = r.buf := by
  rcases r.tick_cases with ⟨-, ht⟩ | ⟨_, -, -, ht⟩ | ⟨_, -, -, ht⟩
  · simp [ht]
  · simp [ht, Reassembler.timeout_payload]
  · simp [ht]

/-! ### Conservation of the stream -/

/-- Over one operation, what was held and what came is what is handed out, followed by what is held. -/
theorem exec_conserves (hr : s.inst? s.sel = some r) (hreset : i.isReset = false) (h : exec i s = .next t) :
    ∃ r', t.inst? s.sel = some r' ∧ r.buf ++ i.arriving.getD [] = t.resp.delivered ++ r'.buf := by
  have hsame {r₀ : Reassembler} (hr₀ : s.inst? s.sel = some r₀) : r₀ = r := Option.some.inj (hr₀.symm.trans hr)
  rcases exec_next h with ⟨hpure, x, -, rfl⟩ | ⟨w, rfl, -⟩ | ⟨chunk, r₀, harr, hr₀, -, rfl⟩ | ⟨r₀, rfl, hr₀, rfl⟩ |
    ⟨r₀, rfl, hr₀, rfl⟩ | ⟨r₀, rfl, hr₀, rfl⟩ | ⟨r₀, rfl, hr₀, rfl⟩
  · refine ⟨r, hr, ?_⟩
    rw [exec_pure_delivered hpure h, arriving_of_pure hpure]
    exact List.append_nil _
  · cases hreset
  all_goals obtain rfl := hsame hr₀
  · refine ⟨_, pushed_inst?_same r₀ chunk, ?_⟩
    rw [harr, pushed_delivered]
    exact (cutFrames_concat _).symm
  · refine ⟨_, State.inst?_setInst_same .., ?_⟩
    simp [Instr.arriving, Response.delivered, Reassembler.timeout_payload]
  · refine ⟨_, State.inst?_setInst_same .., ?_⟩
    simp [Instr.arriving, Response.delivered, Reassembler.tick_conserves]
  · refine ⟨_, State.inst?_setInst_same .., ?_⟩
    simp [Instr.arriving, Response.delivered]
  · refine ⟨_, State.inst?_setInst_same .., ?_⟩
    by_cases hbuf : r₀.buf = [] <;> simp [Instr.arriving, Response.delivered, Reassembler.flush_snd, hbuf]

theorem execAll_conserves {ops : List Instr} {ps : List Response} (hr : s.inst? s.sel = some r)
    (hreset : ∀ i ∈ ops, i.isReset = false) (h : execAll ops s = some (t, ps)) :
    ∃ r', t.inst? s.sel = some r' ∧
      r.buf ++ ops.flatMap (fun i => i.arriving.getD []) = ps.flatMap Response.delivered ++ r'.buf := by
  induction ops generalizing s r ps with
  | nil =>
    cases h
    exact ⟨r, hr, by simp⟩
  | cons i is ih =>
    obtain ⟨hi, his⟩ := List.forall_mem_cons.1 hreset
    obtain ⟨u, qs, hexec, hrest, rfl⟩ := execAll_cons_iff.1 h
    obtain ⟨-, hsel, -⟩ := exec_onlySelectedChanged hexec
    obtain ⟨r₁, hr₁, hstep⟩ := exec_conserves hr hi hexec
    rw [← hsel] at hr₁ ⊢
    obtain ⟨r', hr', hrun⟩ := ih hr₁ his hrest
    refine ⟨r', hr', ?_⟩
    rw [List.flatMap_cons, List.flatMap_cons, ← List.append_assoc, hstep, List.append_assoc, hrun, List.append_assoc]

end Sys2Proof.Machine

open Sys2Proof Sys2Proof.Machine

/-- Settles O45, by induction on the run. -/
theorem noByteIsLostOrReordered : Obligations.NoByteIsLostOrReordered := fun _ _ _ _ _ hr hreset h =>
  execAll_conserves hr hreset h

end

section
/-! How long bytes can be held (R185): until the last tick of the window, or until as many chunks came as a frame has
bytes. -/

namespace Sys2Proof.Machine

variable {s t : State} {r : Reassembler}

/-- Ticks but for the last, with any polls of the queue between them, complete in silence and leave the bytes held. -/
theorem execAll_wait {ops : List Instr} {d : Nat} (hr : s.inst? s.sel = some r) (hrunning : r.timer = .running d)
    (hops : ∀ i ∈ ops, i = .tick ∨ i = .pollReady) (hd : ops.count .tick + 1 = d) :
    ∃ t ps r', execAll ops s = some (t, ps) ∧ (∀ p ∈ ps, p.events = []) ∧ t.sel = s.sel ∧
      t.inst? s.sel = some r' ∧ r'.buf = r.buf ∧ r'.timer = .running 1 := by
  induction ops generalizing s r d with
  | nil =>
    obtain rfl : d = 1 := by simpa using hd.symm
    exact ⟨s, [], r, rfl, by simp, rfl, hr, rfl, hrunning⟩
  | cons i is ih =>
    obtain ⟨hi, his⟩ := List.forall_mem_cons.1 hops
    rcases hi with rfl | rfl
    · rw [List.count_cons_self] at hd
      have hexec := exec_tick_of_some hr
      rw [Reassembler.tick_of_more (by omega) hrunning] at hexec
      obtain ⟨t, ps, r', hrest, hsilent, hsel, hr', hbuf, htimer⟩ :=
        ih (s := (s.setInst s.sel { r with timer := .running (d - 1) }).respond .none [])
          (State.inst?_setInst_same ..) rfl his (by omega)
      exact ⟨t, _, r', execAll_cons_iff.2 ⟨_, ps, hexec, hrest, rfl⟩, List.forall_mem_cons.2 ⟨rfl, hsilent⟩, hsel, hr',
        hbuf, htimer⟩
    · rw [List.count_cons_of_ne (by decide)] at hd
      obtain ⟨t, ps, r', hrest, hsilent, hsel, hr', hbuf, htimer⟩ :=
        ih (s := (s.setInst s.sel { r with readyQ := [] }).respond (.frames r.readyQ) [])
          (State.inst?_setInst_same ..) hrunning his hd
      exact ⟨t, _, r', execAll_cons_iff.2 ⟨_, ps, exec_pollReady_of_some hr, hrest, rfl⟩,
        List.forall_mem_cons.2 ⟨rfl, hsilent⟩, hsel, hr', hbuf, htimer⟩

theorem exists_frame_of_le {len : Nat} {b : List Byte} (hpos : 0 < len) (h : len ≤ b.length) :
    ∃ f, f ∈ (cutFrames len b).1 := by
  rw [← List.length_pos_iff_exists_mem, cutFrames_count]
  exact Nat.div_pos h hpos

/-- From enough bytes held, a non-empty chunk each, a frame is cut: a push that cuts none leaves at least one byte more. -/
theorem execAll_pushes_yield_frame {chunks : List (List Byte)} {ps : List Response} (hr : s.inst? s.sel = some r)
    (hpos : 0 < s.cfg.frameLen) (hnonempty : ∀ c ∈ chunks, c ≠ []) (hne : chunks ≠ [])
    (henough : s.cfg.frameLen ≤ r.buf.length + chunks.length) (h : execAll (chunks.map .rxPush) s = some (t, ps)) :
    ∃ p ∈ ps, ∃ f, Event.frameReady f ∈ p.events := by
  induction chunks generalizing s r ps with
  | nil => exact absurd rfl hne
  | cons chunk rest ih =>
    obtain ⟨hchunk, hrest⟩ := List.forall_mem_cons.1 hnonempty
    obtain ⟨u, qs, hexec, hrun, rfl⟩ := execAll_cons_iff.1 h
    obtain ⟨r₀, hr₀, -, rfl⟩ := exec_rxPush_iff.1 hexec
    obtain rfl : r₀ = r := Option.some.inj (hr₀.symm.trans hr)
    by_cases hcut : s.cfg.frameLen ≤ (r₀.buf ++ chunk).length
    · obtain ⟨f, hf⟩ := exists_frame_of_le hpos hcut
      exact ⟨_, List.mem_cons_self, f, List.mem_map_of_mem hf⟩
    · have hheld : (r₀.push s.cfg.frameLen chunk).1.buf = r₀.buf ++ chunk := by
        rw [Reassembler.push_buf, cutFrames_short fun hlong => hcut hlong.2]
      have hgrown : r₀.buf.length + 1 ≤ (r₀.push s.cfg.frameLen chunk).1.buf.length := by
        have := List.length_pos_iff.2 hchunk
        rw [hheld, List.length_append]; omega
      rw [List.length_cons] at henough
      have hmore : rest ≠ [] := by
        rintro rfl
        rw [hheld] at hgrown
        simp only [List.length_nil] at henough
        omega
      obtain ⟨p, hp, hframe⟩ := ih (pushed_inst?_same r₀ chunk) hpos hrest hmore (by simp only [pushed_cfg]; omega) hrun
      exact ⟨p, List.mem_cons_of_mem _ hp, hframe⟩

end Sys2Proof.Machine

open Sys2Proof Sys2Proof.Machine

/-- Settles O46: the wait of `execAll_wait`, and the last tick. -/
theorem idleFlushComesAtTheEndOfTheWindow : Obligations.IdleFlushComesAtTheEndOfTheWindow := by
  intro ops s r d hr hbuf hrunning hops hd
  obtain ⟨t, ps, r', hrun, hsilent, hsel, hr', hheld, hlast⟩ := execAll_wait hr hrunning hops hd
  have hexec := exec_tick_of_some (hsel ▸ hr')
  rw [Reassembler.tick_of_last hlast, hheld, if_neg hbuf, hsel] at hexec
  exact ⟨t, ps, _, hrun, hsilent, hexec, rfl, _, State.inst?_setInst_same .., rfl, rfl⟩

/-- Settles O47: with as many non-empty chunks as a frame has bytes, whatever is held is enough. -/
theorem sixteenNonemptyChunksYieldAFrame : Obligations.SixteenNonemptyChunksYieldAFrame := by
  intro chunks s t ps hpos hlen hnonempty h
  have hne : chunks ≠ [] := List.length_pos_iff.1 (hlen ▸ hpos)
  obtain ⟨chunk, rest, rfl⟩ := List.exists_cons_of_ne_nil hne
  obtain ⟨u, qs, hexec, -⟩ := execAll_cons_iff.1 h
  obtain ⟨r, hr, -⟩ := exec_rxPush_iff.1 hexec
  exact execAll_pushes_yield_frame hr hpos hnonempty hne (hlen ▸ Nat.le_add_left ..) h

end

section
/-! The field views of a built frame (R186): each field is read from the offsets the shared constructor placed it at. -/

namespace Sys2Proof.Machine

variable {s t : State} {f : Frame}

/-- The frame in the response of an operation that answers with `g` is `g`. -/
theorem frame_eq_of_exec {i : Instr} {g : Frame} (h : exec i s = .next t) (hf : t.resp.result = .frame f)
    (hg : exec i s = .next (s.respond (.frame g) [])) : f = g := by
  obtain rfl := Host.Outcome.next.inj (hg.symm.trans h)
  exact (Result.frame.inj hf).symm

/-! ### The views of a finished frame -/

variable (c : Config) (b2 b3 b4 b5 b6 b7 b8 b9 b10 b11 b12 b13 b14 : Byte)

/-- The payload is offsets 7 to 14 and the zeros up to the checksum. -/
theorem payload_finish (h : 16 ≤ c.frameLen) :
    (fieldView c (finish c b2 b3 b4 b5 b6 b7 b8 b9 b10 b11 b12 b13 b14)).payload =
      [b7, b8, b9, b10, b11, b12, b13, b14] ++ List.replicate (c.frameLen - 16) 0x00 := by
  have hlen : ([b7, b8, b9, b10, b11, b12, b13, b14] ++ List.replicate (c.frameLen - 16) (0x00 : Byte)).length =
      c.frameLen - 2 + 1 - 7 := by
    rw [List.length_append, List.length_replicate]
    simp only [List.length_cons, List.length_nil]
    omega
  exact List.take_left' hlen

end Sys2Proof.Machine

open Sys2Proof Sys2Proof.Machine

/-- Settles O32: a view reads the bytes at its offsets, and the halves of a 16-bit value join to it. -/
theorem fieldViewsReturnTheOperands : Obligations.FieldViewsReturnTheOperands := by
  intro s t f hf
  refine ⟨fun cmd idx s1 s2 s3 corrupt h => ?_, fun n ini h => ?_, fun ct si ei start step h => ?_, fun mode h => ?_⟩
  · obtain rfl := exec_bldVolt_next cmd idx corrupt h hf
    exact ⟨rfl, rfl, rfl, joinBytes_hi_lo _, joinBytes_hi_lo _, joinBytes_hi_lo _⟩
  · obtain rfl := frame_eq_of_exec (g := bldAfecnt s.cfg n ini) h hf rfl
    exact ⟨joinBytes_hi_lo _, rfl, fun hlen => payload_finish (h := hlen) ..⟩
  · obtain rfl := frame_eq_of_exec (g := bldRange s.cfg ct si ei start step) h hf rfl
    refine ⟨joinBytes_hi_lo _, rfl, fun hlen => ?_, joinBytes_hi_lo _, joinBytes_hi_lo _⟩
    rw [bldRange, payload_finish (h := hlen)]
    rfl
  · obtain rfl := frame_eq_of_exec (g := bldSpimode s.cfg mode) h hf rfl
    exact ⟨joinBytes_hi_lo _, rfl, fun hlen => payload_finish (h := hlen) ..⟩

end

section
/-! An arriving frame word (R206 (a), R154): with fewer bytes held than a frame has, a push of one frame's bytes cuts
exactly one frame. -/

open Sys2Proof Sys2Proof.Machine

/-- Settles O41: the arrival is a push of the frame's bytes, and `(m + FRAME_LEN) div FRAME_LEN` is 1. -/
theorem arrivingFrameWordCompletesOneFrame : Obligations.ArrivingFrameWordCompletesOneFrame := by
  intro f i s r hi hf hr hheld hroom
  have harr : i.arriving = some f.bytes := by rcases hi with rfl | rfl | rfl | rfl <;> rfl
  obtain ⟨t, fs, residual, hexec, hstream, -, hcount, hleft, hresp, hinst, hframe⟩ :=
    rxPushCutsTheStream f.bytes s r hr hroom
  have hone : fs.length = 1 := by
    rw [hcount, hf, Nat.add_div_right _ (Nat.zero_lt_of_lt hheld), Nat.div_eq_of_lt hheld]
  obtain ⟨g, rfl⟩ := List.length_eq_one_iff.1 hone
  refine ⟨t, g, residual, (exec_arriving harr s).trans hexec, ?_, ?_, hresp, hinst, hframe⟩
  · rwa [List.flatMap_singleton] at hstream
  · rw [hleft, hf, Nat.add_mod_right, Nat.mod_eq_of_lt hheld]

end

section
/-! A chunk and the deadline in either order (R207): the same push, after the flush of the last
tick or instead of it; a chunk that fits before the flush fits after it. -/

namespace Sys2Proof.Machine

variable {s : State} {r : Reassembler} {chunk : List Byte}

/-- With fewer bytes held, and the queue as it is, a chunk still fits. -/
theorem Room.of_fewer_held {c : Config} {r' : Reassembler} (h : Room c r chunk) (hq : r'.readyQ = r.readyQ)
    (hbuf : r'.buf.length ≤ r.buf.length) : Room c r' chunk := by
  obtain ⟨hchunk, hqueue⟩ := h
  refine ⟨hchunk, fun n hn => le_trans ?_ (hqueue n hn)⟩
  rw [hq]
  exact Nat.add_le_add_left (Nat.div_le_div_right (Nat.add_le_add_right hbuf _)) _

/-- `RxPushCutsTheStream` as a run of one operation. -/
theorem execAll_rxPush (hr : s.inst? s.sel = some r) (hroom : Room s.cfg r chunk) :
    ∃ t fs b, execAll [.rxPush chunk] s =
        some (t, [{ result := .none, events := List.map Event.frameReady fs }]) ∧
      fs.flatMap Frame.bytes ++ b = r.buf ++ chunk ∧ b.length = (r.buf.length + chunk.length) % s.cfg.frameLen ∧
      t.inst? s.sel = some { buf := b, timer := if b = [] then .stopped else .running r.idleWindow,
                             readyQ := r.readyQ ++ fs, idleWindow := r.idleWindow } := by
  obtain ⟨t, fs, b, hexec, hstream, -, -, hleft, hresp, hinst, -⟩ := rxPushCutsTheStream chunk s r hr hroom
  exact ⟨t, fs, b, execAll_cons_iff.2 ⟨t, [], hexec, rfl, by rw [hresp]⟩, hstream, hleft, hinst⟩

end Sys2Proof.Machine

open Sys2Proof Sys2Proof.Machine

/-- Settles O48: the push runs on the flushed reassembler, or on the one with the bytes held. -/
theorem chunkAndDeadlineInEitherOrder : Obligations.ChunkAndDeadlineInEitherOrder := by
  intro chunk s r hr hbuf hlast hroom
  refine ⟨?_, execAll_rxPush hr hroom⟩
  have htick := exec_tick_of_some hr
  rw [Reassembler.tick_of_last hlast, if_neg hbuf] at htick
  have hflushed : Room s.cfg { r with buf := [], timer := .stopped } chunk := hroom.of_fewer_held rfl (Nat.zero_le _)
  obtain ⟨t, fs, b, hrun, hstream, hleft, hinst⟩ :=
    execAll_rxPush (s := (s.setInst s.sel { r with buf := [], timer := .stopped }).respond .none [.remainder r.buf])
      (State.inst?_setInst_same ..) hflushed
  exact ⟨t, fs, b, execAll_cons_iff.2 ⟨_, _, htick, hrun, rfl⟩, hstream, by simpa using hleft, hinst⟩

end

section
/-! Where an operation stops (R200): a DEC operation other than `RX_RESET` is a push or an operation on the selected
reassembler, and without configured bounds only a missing one stops it. -/

namespace Sys2Proof.Machine

variable {s : State} {i : Instr}

/-- The two shapes of a DEC operation that creates no reassembler. -/
theorem exec_dec_eq (hdec : i.isPure = false) (hreset : i.isReset = false) :
    (∃ chunk, ∀ s, exec i s = pushBytes chunk s) ∨ ∃ op, ∀ s, exec i s = onInst op s := by
  cases harr : i.arriving with
  | some chunk => exact .inl ⟨chunk, exec_arriving harr⟩
  | none =>
    refine .inr ?_
    cases i <;> simp only [Instr.isPure, Instr.isReset, Instr.arriving, reduceCtorEq] at hdec hreset harr
    case rxTimeout => exact ⟨_, fun _ => rfl⟩
    case tick => exact ⟨_, fun _ => rfl⟩
    case pollReady => exact ⟨_, fun _ => rfl⟩
    case pollRem => exact ⟨_, fun _ => rfl⟩

theorem exec_dec_of_none (hdec : i.isPure = false) (hreset : i.isReset = false) (hnone : s.inst? s.sel = none) :
    exec i s = .refused (.noInstance s.sel) := by
  rcases exec_dec_eq hdec hreset with ⟨chunk, hexec⟩ | ⟨op, hexec⟩
  · rw [hexec, pushBytes_of_none hnone]
  · rw [hexec, onInst_of_none hnone]

theorem exec_dec_of_unbounded {r : Reassembler} (hdec : i.isPure = false) (hreset : i.isReset = false)
    (hmax : s.cfg.maxChunk = none) (hdepth : s.cfg.readyQDepth = none) (hr : s.inst? s.sel = some r) :
    ∃ t, exec i s = .next t := by
  rcases exec_dec_eq hdec hreset with ⟨chunk, hexec⟩ | ⟨op, hexec⟩
  · exact ⟨_, (hexec s).trans (pushBytes_of_room hr (room_of_unbounded hmax hdepth r chunk))⟩
  · exact ⟨_, (hexec s).trans (onInst_of_some hr)⟩

theorem eq_rxReset_of_isReset (h : i.isReset = true) : ∃ w, i = .rxReset w := by
  cases i <;> simp only [Instr.isReset, Bool.false_eq_true] at h
  exact ⟨_, rfl⟩

end Sys2Proof.Machine

open Sys2Proof Sys2Proof.Machine

/-- Settles O54, by the unit of the operation, and in unit DEC by its window or by whether its reassembler exists. -/
theorem onlyTheNamedRequestsAreRefused : Obligations.OnlyTheNamedRequestsAreRefused := by
  intro i s hmax hdepth
  cases hpure : i.isPure with
  | true =>
    obtain ⟨f, -, hexec⟩ := exec_pure hpure
    exact .inl ⟨_, hexec s⟩
  | false =>
    cases hreset : i.isReset with
    | true =>
      obtain ⟨w, rfl⟩ := eq_rxReset_of_isReset hreset
      cases w with
      | zero => exact .inr (.inl ⟨rfl, rfl⟩)
      | succ w => exact .inl ⟨_, exec_rxReset (Nat.le_add_left ..) s⟩
    | false =>
      cases hr : s.inst? s.sel with
      | none => exact .inr (.inr ⟨rfl, rfl, rfl, exec_dec_of_none hpure hreset hr⟩)
      | some r => exact .inl (exec_dec_of_unbounded hpure hreset hmax hdepth hr)

end

section

open Sys2Proof Sys2Proof.Machine

/-- Settles O43: a push and an operation on the selected reassembler both look the instance up first, and those are the
two shapes of a DEC operation other than `RX_RESET` (`exec_dec_of_none`). -/
theorem decOperationsNeedAnInstance : Obligations.DecOperationsNeedAnInstance :=
  fun _ _ hdec hreset hnone => exec_dec_of_none hdec hreset hnone

end

section

open Sys2Proof Sys2Proof.Machine

/-- Settles O2: the one instance is a fresh one whose frame length and window are positive (`Reassembler.fresh_inv`),
and the response carries nothing. -/
theorem resetMeetsTheInvariant : Obligations.ResetMeetsTheInvariant := by
  have hcfg : State.reset.cfg.wf = true := by decide
  have hsorted : InstsSorted State.reset.insts := List.pairwise_singleton ..
  have hinsts : ∀ p ∈ State.reset.insts, p.2.Inv State.reset.cfg :=
    List.forall_mem_singleton.2 (Reassembler.fresh_inv (by decide) (by decide))
  exact ⟨hcfg, hsorted, hinsts, List.forall_mem_nil _, trivial⟩

end
